-- ==== Sys2Proof/Word.lean ====
section
/-! DEFINITION. The two words of the engine: a tape cell (CELL_W = 8, spec R5) and a program character code
(CHAR_W = 8, spec R6 and D3). Both are unsigned, bit 0 the least significant (R7). Indices (PTR, PC, jump targets) are
never seen as words by any instruction and are natural numbers. -/

namespace Sys2Proof

/-- One 8-bit unsigned cell or stream unit (R5, R22, R164). -/
abbrev Byte := BitVec 8

/-- One program character code, the whole of which is the opcode (R80). -/
abbrev Code := BitVec 8

end Sys2Proof
end

