-- ==== Sys2Proof/Machine/HostSide.lean ====
section
/-! DEFINITION. What the host can do at the engine's ports (47_host_interface.md): its answers, its moves, and a port's feed of
them. A feed lists what the host does next and says what it does after that: one thing for ever, or whatever it likes, which
is a free value (R197: "constrained by nothing"; assumptions 7, 8 and 9). -/

namespace Sys2Proof.Machine

/-- What the host's input stream answers to a request (R163): a byte, or end of stream or read failure, which the engine
does not tell apart. -/
inductive InAnswer where
  | byte (b : Byte)
  | noByte
deriving DecidableEq, Repr

/-- One move of the host at the command, program or reset port (R192, R193, R203). -/
inductive HostMove where
  /-- the host lets one step pass -/
  | pause
  /-- `rst` = 1 (R203): acts at once, in every phase -/
  | hardwareReset
  /-- `prog_we` with an address and a character (R193) -/
  | progWrite (addr : Nat) (char : Code)
  /-- the EXECUTE command with `cmd_len` (R192) -/
  | execute (len : Nat)
  /-- the RESET command (R192) -/
  | reset
deriving DecidableEq, Repr, Inhabited

/-- What the host does at a port once the listed items are used up. -/
inductive Rest (α : Type) where
  /-- `a` for ever -/
  | always (a : α)
  /-- its own choice each time: the free values of Config for this port, from the `n`-th on -/
  | drawn (n : Nat)
deriving DecidableEq, Repr

/-- What the host does at one port, one item for each step in which the engine looks there. -/
structure Feed (α : Type) where
  items : List α
  rest : Rest α
deriving DecidableEq, Repr

/-- The host that does nothing at the command, program and reset ports. -/
def noMoves : Feed HostMove := ⟨[], .always .pause⟩

end Sys2Proof.Machine
end

