-- ==== Sys2Proof/Config.lean ====
section
/-! DEFINITION. What the spec fixes for the engine (tape length, derived widths), the eight character codes that it wants
kept here and out of the semantics (R84, D4), and the free values: what a program location holds that nothing has written
since hardware reset, and what the host chooses at each of its ports. -/

namespace Sys2Proof.Config

/-- TAPE_LEN (R5, conflict C1). Statements use the name; only `tapeLen_pos` is a property of the number. -/
def tapeLen : Nat := 30000

theorem tapeLen_pos : 0 < tapeLen := by decide

/-- PTR_W (R5): the width at which the observation port shows the pointer (R199). -/
def ptrW : Nat := 15

theorem tapeLen_le_two_pow_ptrW : tapeLen ≤ 2 ^ ptrW := by decide

/-- PC_W = ceil(log2(PROG_MAX + 1)) (R6): the width of the program counter, error index and table entries of an engine
that holds `progMax` characters. -/
def pcW (progMax : Nat) : Nat := if progMax = 0 then 0 else progMax.log2 + 1

/-! The eight codes of R84 (ASCII, from general knowledge by decision D4: PRESUMED, assumption 3). -/

/-- `+` -/
def codeInc : Code := 0x2B
/-- `,` -/
def codeIn : Code := 0x2C
/-- `-` -/
def codeDec : Code := 0x2D
/-- `.` -/
def codeOut : Code := 0x2E
/-- `<` -/
def codeLeft : Code := 0x3C
/-- `>` -/
def codeRight : Code := 0x3E
/-- `[` -/
def codeOpen : Code := 0x5B
/-- `]` -/
def codeClose : Code := 0x5D

/-- FREE VALUE (U7, assumption 5): the content of program location `i` before any write since hardware reset. R26 calls it
unspecified and unobservable. -/
opaque progPowerOn : Nat → Code

/-- FREE VALUE (U11, U12, U15, assumption 8): the `n`-th choice of a host that answers `,` as it likes; `none` is "not yet".
R197: any `Byte(b)` or `NoByte`, "constrained by nothing". -/
opaque hostAnswer : Nat → Option Machine.InAnswer

/-- FREE VALUE (U15, assumption 9): the `n`-th choice of a host that accepts output units when it likes (R198). -/
opaque hostAccepts : Nat → Bool

/-- FREE VALUE (R200, assumption 7): the `n`-th choice of a host that does what it likes at the command, program and reset
ports. -/
opaque hostMove : Nat → Machine.HostMove

end Sys2Proof.Config
end

