-- ==== Sys2Proof/Syntax.lean ====
section
/-! DEFINITION. The instructions: one constructor per row of spec/opcode_table.json (R85). No instruction has an operand
field (R83). The default row NOP stands for 248 character codes (R86) and keeps the one it was read from, so that no bit of
a program is lost. -/

namespace Sys2Proof

inductive Instr where
  /-- `>` RIGHT (R140) -/
  | right
  /-- `<` LEFT (R141) -/
  | left
  /-- `+` INC (R150) -/
  | inc
  /-- `-` DEC (R151) -/
  | dec
  /-- `.` OUT (R160) -/
  | out
  /-- `,` IN (R161) -/
  | inp
  /-- `[` OPEN (R170) -/
  | loopOpen
  /-- `]` CLOSE (R171) -/
  | loopClose
  /-- any other character, with its code (R180) -/
  | nop (code : Code)
deriving DecidableEq, Repr

end Sys2Proof
end

