-- ==== Sys2Proof/WellFormed.lean ====
section
/-! DEFINITION. Which terms of `Instr` are instructions of the engine: a NOP's code is none of the eight of R84, since the
NOP row applies exactly when no other row matches (R85). The other constructors carry nothing to check. -/

namespace Sys2Proof

/-- The eight codes of R84, in the table's order there. -/
def instrCodes : List Code :=
  [Config.codeInc, Config.codeIn, Config.codeDec, Config.codeOut, Config.codeLeft, Config.codeRight, Config.codeOpen,
    Config.codeClose]

/-- R85, R86: the code of a NOP is one of the 248 that match no other row. -/
def Instr.wellFormed : Instr → Bool
  | .right => true
  | .left => true
  | .inc => true
  | .dec => true
  | .out => true
  | .inp => true
  | .loopOpen => true
  | .loopClose => true
  | .nop code => !instrCodes.contains code

end Sys2Proof
end

