-- ==== Sys2Proof/Decode.lean ====
section
/-! DEFINITION. The decoder (R81, R85: exact match over all bits, total, NOP the default row) and the encoder. An instruction
is one character (R82), so the decoder of a character list takes one and leaves the rest; the only list it rejects is the
empty one, by name. -/

namespace Sys2Proof

/-- R81 at any character width: does the code `c` equal the instruction code `k`, zero-extended? -/
def codeIs {w : Nat} (c : BitVec w) (k : Code) : Bool := c == k.setWidth w

/-- The opcode map of R85 at any character width; `other` is what the default row gives. -/
def decodeAt {w : Nat} (c : BitVec w) (other : Instr) : Instr :=
  if codeIs c Config.codeRight then .right
  else if codeIs c Config.codeLeft then .left
  else if codeIs c Config.codeInc then .inc
  else if codeIs c Config.codeDec then .dec
  else if codeIs c Config.codeOut then .out
  else if codeIs c Config.codeIn then .inp
  else if codeIs c Config.codeOpen then .loopOpen
  else if codeIs c Config.codeClose then .loopClose
  else other

/-- The decoder of one fetched character (R81, CHAR_W = 8). Total: there is no illegal encoding (R86). -/
def decodeChar (c : Code) : Instr := decodeAt c (.nop c)

/-- Why a list of characters holds no instruction. -/
inductive DecodeError where
  /-- there is no character left to read -/
  | endOfSource
deriving DecidableEq, Repr

/-- The instruction at the head of a character list, and the characters after it (R82: always one character long). -/
def decode : List Code → Except DecodeError (Instr × List Code)
  | [] => .error .endOfSource
  | c :: rest => .ok (decodeChar c, rest)

/-- The whole source as instructions, one per character (R82: nothing is folded or skipped). -/
def decodeProgram : List Code → List Instr
  | [] => []
  | c :: rest => decodeChar c :: decodeProgram rest

/-- The character of an instruction (R84, R85). -/
def encode : Instr → Code
  | .right => Config.codeRight
  | .left => Config.codeLeft
  | .inc => Config.codeInc
  | .dec => Config.codeDec
  | .out => Config.codeOut
  | .inp => Config.codeIn
  | .loopOpen => Config.codeOpen
  | .loopClose => Config.codeClose
  | .nop code => code

/-- The source text of an instruction list. -/
def encodeProgram : List Instr → List Code
  | [] => []
  | i :: rest => encode i :: encodeProgram rest

/-- The host's question: what the decoder reads from the `nbits` bits of `w`, the bits above them 0. -/
def decodeTableWord (nbits w : Nat) : Option Instr :=
  match decode [BitVec.ofNat 8 (w % 2 ^ nbits)] with
  | .ok (i, _) => some i
  | .error _ => none

end Sys2Proof
end

