-- ==== Sys2Proof/Machine/State.lean ====
section
/-! DEFINITION. The machine's state as plain data, and its value right after hardware reset (R40, R250). The engine's own
state is what 10_state.md names; the host's side (what it will do at each port, and the history of events) is held beside
it, so that every statement over all states is a statement over every host. -/

namespace Sys2Proof.Machine

/-- PHASE (R30). The code `0b11` is reserved and has no constructor (U21). -/
inductive Phase where
  /-- no run in progress; commands are accepted -/
  | idle
  /-- the Loop Resolver is scanning; no instruction has been dispatched -/
  | resolve
  /-- the dispatch loop is running -/
  | run
deriving DecidableEq, Repr

/-- The two structural errors with the index they carry (R220, R221). -/
inductive StructuralError where
  /-- a `]` met with the resolver's stack empty (R102) -/
  | unmatchedClose (index : Nat)
  /-- the scan ended with the stack not empty; the index on top of it (R103) -/
  | unmatchedOpen (index : Nat)
deriving DecidableEq, Repr

/-- RESULT.KIND (R32). The code `0b11` has no constructor (U21). -/
inductive ReportKind where
  | ok
  | unmatchedClose
  | unmatchedOpen
deriving DecidableEq, Repr

/-- RESULT, the completion report of the last finished run (R32). -/
structure Report where
  kind : ReportKind
  index : Nat
deriving DecidableEq, Repr

/-- The event alphabet of R191. `outAccept` carries the unit whose delivery it ends. -/
inductive Event where
  | construct
  | execute (source : List Code)
  | reset
  | inAnswer (a : InAnswer)
  | outAccept (unit : Byte)
  | inRequest
  | outUnit (unit : Byte)
  | completed (report : Report)
  | resetDone
deriving DecidableEq, Repr

/-- Why the machine stops. No rule of the spec gives a run-time fault (R130, R222); each of these is unreachable from
reset and stands where a state no run reaches leaves the rules without an answer. -/
inductive Fault where
  /-- raised by `execLoopClose`: a taken `]` finds no jump-table entry (U23: "the missing case is a `fault` that a lemma
  shows never fires"). Safe. -/
  | noJumpEntry
  /-- raised by `State.runEngine`: phase RUN with PC above PROG_LEN, for which no rule exists (R126 to R128). Safe. -/
  | pcOutsideProgram
deriving DecidableEq, Repr

/-- Launches and writes the host has a duty not to make and of which the spec says nothing, and instructions not modelled. -/
inductive Refusal where
  /-- raised by `exec`: an instruction with no meaning yet. Safe. There is none. -/
  | notModelled (mnemonic : String)
  /-- raised by `State.acceptExecute`: the source is longer than PROG_MAX (R194(a), U2: refuse). Safe. -/
  | sourceTooLong
  /-- raised by `State.acceptExecute`: a location below `cmd_len` has not been written since hardware reset (R194(b), U8:
  refuse). Safe. -/
  | sourceUnwritten
  /-- raised by `State.writeProgram`: a program write at or above PROG_MAX, where there is no location (R194(a)). Safe. -/
  | progAddressOutside
deriving DecidableEq, Repr

/-- The machine. -/
structure State where
  /-- TAPE (R22): (index, cell) pairs, indices strictly rising and below TAPE_LEN, no cell 0; an unlisted cell holds 0 -/
  tape : List Host.Cell
  /-- PTR (R21); U22: a pointer out of range does not exist -/
  ptr : Fin Config.tapeLen
  /-- PC (R24) -/
  pc : Nat
  /-- JT (R28): (index of a `]`, index of its `[`), first components strictly rising -/
  jt : List (Nat × Nat)
  /-- PROG (R26, R193): the locations written since hardware reset, addresses strictly rising; kept from run to run
  (assumption 25) -/
  prog : List (Nat × Code)
  /-- PROG_LEN (R26) -/
  progLen : Nat
  /-- PHASE (R30) -/
  phase : Phase
  /-- RESULT (R32) -/
  result : Report
  /-- the DONE pulse (R33, R196): was a run or a RESET finished by the last step? -/
  done : Bool
  /-- STK (R34), the top first -/
  stk : List Nat
  /-- SCAN (R35) -/
  scan : Nat
  /-- `in_req` (R197): a `,` has asked and is not answered yet -/
  inReq : Bool
  /-- `out_valid` and `out_byte` (R198): the unit a `.` offers and the host has not accepted yet -/
  outOffer : Option Byte
  /-- PROG_MAX (R6, D5), a parameter of the engine that no step changes; `none` is unbounded -/
  progMax : Option Nat
  /-- the host's side of the command, program and reset ports: its coming moves -/
  moves : Feed HostMove
  /-- the host's side of the input port (R197): an answer, or `none` for a step in which it does not answer yet -/
  input : Feed (Option InAnswer)
  /-- the host's side of the output port (R198): `out_ready` -/
  accept : Feed Bool
  /-- the events so far (R191), oldest first; OUT and the position in IN are read off it -/
  log : List Event
deriving DecidableEq, Repr

/-- The machine right after hardware reset (R250). PROG and PROG_LEN are unspecified there (assumption 5); the host's side
(`progMax`, `moves`, `input`, `accept`, `log`) is the environment's, and its values here are the model's (assumptions 1, 7,
8, 9 and 10). -/
def State.reset : State where
  tape := []
  ptr := ⟨0, Config.tapeLen_pos⟩
  pc := 0
  jt := []
  prog := []
  progLen := 0
  phase := .idle
  result := ⟨.ok, 0⟩
  done := false
  stk := []
  scan := 0
  inReq := false
  outOffer := none
  progMax := none
  moves := noMoves
  input := ⟨[], .always (some .noByte)⟩
  accept := ⟨[], .always true⟩
  log := [.construct]

end Sys2Proof.Machine
end

