-- ==== Sys2Proof/Machine/Memory.lean ====
section
/-! DEFINITION. Finite maps over natural-number keys as strictly rising lists, used for TAPE, JT and PROG, and the tape's
read and write on top of them. Five disjoint spaces (R50): each map is reached by its own operations only. -/

namespace Sys2Proof.Machine

/-- The value listed for key `a`. -/
def mapGet {α : Type} : List (Nat × α) → Nat → Option α
  | [], _ => none
  | (k, v) :: m, a => if a = k then some v else mapGet m a

/-- `m` with `v` at key `a`, in key order. -/
def mapInsert {α : Type} : List (Nat × α) → Nat → α → List (Nat × α)
  | [], a, v => [(a, v)]
  | (k, w) :: m, a, v =>
    if a < k then (a, v) :: (k, w) :: m
    else if a = k then (a, v) :: m
    else (k, w) :: mapInsert m a v

/-- `m` with nothing at key `a`. -/
def mapErase {α : Type} : List (Nat × α) → Nat → List (Nat × α)
  | [], _ => []
  | (k, w) :: m, a => if a = k then mapErase m a else (k, w) :: mapErase m a

/-- Keys strictly rising: the one form in which equal maps are equal lists. -/
def mapSorted {α : Type} : List (Nat × α) → Bool
  | [] => true
  | [_] => true
  | (k, _) :: (l, w) :: m => decide (k < l) && mapSorted ((l, w) :: m)

/-- TAPE[a]; an unlisted cell holds 0 (R22, R23(b)). -/
def tapeGet (m : List Host.Cell) (a : Nat) : Byte := (mapGet m a).getD 0#8

/-- TAPE[a] <- v, keeping the canonical form: the value an unlisted cell holds is not listed. -/
def tapeSet (m : List Host.Cell) (a : Nat) (v : Byte) : List Host.Cell :=
  if v = 0#8 then mapErase m a else mapInsert m a v

/-- The canonical form of the tape (R22, R23): indices strictly rising and below TAPE_LEN, no listed cell 0. -/
def Memory.wf (m : List Host.Cell) : Bool :=
  mapSorted m && m.all (fun c => decide (c.1 < Config.tapeLen) && c.2 != 0#8)

end Sys2Proof.Machine
end

