-- ==== Sys2Proof/Machine/Ops.lean ====
section
/-! DEFINITION. The shared operations on the machine: the primitives of R9 (MemRead, MemWrite, PROG[i], InNext, OutPut), the
event history and what is read off it, the program counter's advance, the taking of a structural error, the end of a run,
and the resets. -/

namespace Sys2Proof.Machine

/-! ### Tape and program -/

/-- `MemRead(PTR, 1)`: the current cell (R9, R57). -/
def State.cell (s : State) : Byte := tapeGet s.tape s.ptr.val

/-- `MemWrite(PTR, 1, v)` (R9, R57). -/
def State.setCell (s : State) (v : Byte) : State := { s with tape := tapeSet s.tape s.ptr.val v }

/-- `PROG[i]` (R26). A location not written since hardware reset holds a free value (U7, assumption 5). -/
def State.progAt (s : State) (i : Nat) : Code := (mapGet s.prog i).getD (Config.progPowerOn i)

/-- The source of the run: `PROG[0 .. PROG_LEN-1]` (R26, R193). -/
def State.source (s : State) : List Code := (List.range s.progLen).map s.progAt

/-- Is every program location below `n` written since hardware reset, before whichever run? (R194(b), assumption 25) -/
def State.writtenBelow (s : State) (n : Nat) : Bool := (List.range n).all fun i => (mapGet s.prog i).isSome

/-- Does a length or position `n` fit an engine of size PROG_MAX (R6)? -/
def fitsProgMax (progMax : Option Nat) (n : Nat) : Bool :=
  match progMax with
  | none => true
  | some m => decide (n ≤ m)

/-- Is `a` the address of a program location (R193, R194(a))? -/
def isProgAddress (progMax : Option Nat) (a : Nat) : Bool :=
  match progMax with
  | none => true
  | some m => decide (a < m)

/-! ### The event history and what is read off it -/

/-- `s` with the events `es` added to its history. -/
def State.record (s : State) (es : List Event) : State := { s with log := s.log ++ es }

/-- The unit an event delivers, if it delivers one (R162: a unit is delivered when the host accepts it). -/
def Event.delivered : Event → Option Byte
  | .outAccept b => some b
  | .construct => none
  | .execute _ => none
  | .reset => none
  | .inAnswer _ => none
  | .inRequest => none
  | .outUnit _ => none
  | .completed _ => none
  | .resetDone => none

/-- The byte an event takes from the input stream, if it takes one (R161, R40). -/
def Event.taken : Event → Option Byte
  | .inAnswer (.byte b) => some b
  | .inAnswer .noByte => none
  | .construct => none
  | .execute _ => none
  | .reset => none
  | .outAccept _ => none
  | .inRequest => none
  | .outUnit _ => none
  | .completed _ => none
  | .resetDone => none

/-- OUT, the 8-bit units delivered so far, in order (R36). -/
def State.outHistory (s : State) : List Byte := s.log.filterMap Event.delivered

/-- The position reached in IN: the number of bytes taken (R36, R40). -/
def State.inPosition (s : State) : Nat := (s.log.filterMap Event.taken).length

/-- The number of `InNext()` requests made so far (R163). -/
def State.inRequests (s : State) : Nat := s.log.countP fun e => e == .inRequest

/-! ### Asking the host -/

/-- What the host does now at a port whose free values are `draw`, and the port's feed afterwards. -/
def feedNext {α : Type} (draw : Nat → α) (f : Feed α) : α × Feed α :=
  match f.items with
  | x :: items => (x, { f with items := items })
  | [] =>
    match f.rest with
    | .always a => (a, f)
    | .drawn n => (draw n, { f with rest := .drawn (n + 1) })

/-- A feed that gives `a` first and then goes on as `f`. -/
def Feed.push {α : Type} (f : Feed α) (a : α) : Feed α := { f with items := a :: f.items }

/-- The host's answer at the input port in this step, `none` while it does not answer (R197), and the feed after it. -/
def State.hostAnswer (s : State) : Option InAnswer × Feed (Option InAnswer) := feedNext Config.hostAnswer s.input

/-- `out_ready` in this step (R198), and the feed after it. -/
def State.hostAccept (s : State) : Bool × Feed Bool := feedNext Config.hostAccepts s.accept

/-- The host's move at the command, program and reset ports in this step, and the feed after it. -/
def State.hostMove (s : State) : HostMove × Feed HostMove := feedNext Config.hostMove s.moves

/-- `in_req` <- 1 (R197). The request is one event however long the host takes. -/
def State.requestInput (s : State) : State :=
  { s with inReq := true, log := s.log ++ (if s.inReq then [] else [.inRequest]) }

/-- `InNext()` (R163, R197): the host's answer if it gives one in this step. Where it does not, the request stays
outstanding and nothing else of the engine changes (R132). -/
def State.inNext (s : State) : Option InAnswer × State :=
  let q := s.requestInput
  match q.hostAnswer with
  | (none, f) => (none, { q with input := f })
  | (some a, f) => (some a, { q with input := f, inReq := false, log := q.log ++ [.inAnswer a] })

/-- `out_valid` <- 1, `out_byte` <- v (R198). The offer is one event however long the host takes. -/
def State.offerUnit (s : State) (v : Byte) : State :=
  { s with outOffer := some v, log := s.log ++ (if s.outOffer.isSome then [] else [.outUnit v]) }

/-- `OutPut(v)` (R162, R198): delivered if the host accepts in this step; otherwise the offer stands and nothing else of the
engine changes (R132). There is no failure (R165). -/
def State.outPut (s : State) (v : Byte) : State :=
  let q := s.offerUnit v
  match q.hostAccept with
  | (false, f) => { q with accept := f }
  | (true, f) => { q with accept := f, outOffer := none, log := q.log ++ [.outAccept v] }

/-- Is the instruction at PC waiting for the host (R132)? -/
def State.waiting (s : State) : Bool := s.inReq || s.outOffer.isSome

/-! ### The dispatch loop's part of a step -/

/-- `PC <- PC + 1` (R25, R126). -/
def State.advance (s : State) : State := { s with pc := s.pc + 1 }

/-- What the dispatch loop does after an instruction's effect: the increment, always, also after a taken `]` (R126); an
instruction that waits for the host is not over and is dispatched again (R132, assumption 12). -/
def State.afterDispatch (s : State) : State := if s.waiting then s else s.advance

/-! ### Structural errors, the end of a run, the resets -/

/-- The kind an error reports (R220). -/
def StructuralError.kind : StructuralError → ReportKind
  | .unmatchedClose _ => .unmatchedClose
  | .unmatchedOpen _ => .unmatchedOpen

/-- The index an error carries (R221). -/
def StructuralError.index : StructuralError → Nat
  | .unmatchedClose i => i
  | .unmatchedOpen i => i

/-- The report of an error (R32, R122). -/
def StructuralError.report (e : StructuralError) : Report := ⟨e.kind, e.index⟩

/-- RESULT <- r, PHASE <- IDLE, Completed(r), DONE (R32, R33, R122, R127). -/
def State.complete (s : State) (r : Report) : State :=
  { s with result := r, phase := .idle, done := true, log := s.log ++ [.completed r] }

/-- TAKING AN EXCEPTION (R122, R231): RESULT <- {kind, index}, JT <- {}, PC <- 0 (it is 0 throughout RESOLVE, R24), the
resolver's transients discarded (R40), PHASE <- IDLE, Completed(Err). Nothing is saved and control goes nowhere in the
Program; there is no return from it (R234). -/
def State.raise (s : State) (e : StructuralError) : State :=
  { s with pc := 0, jt := [], stk := [], scan := 0 }.complete e.report

/-- The end of a run that passed resolution (R127). -/
def State.endRun (s : State) : State := s.complete ⟨.ok, 0⟩

/-- The RESET command (R124, R251, R40): tape, pointer, program counter, jump table and RESULT; not PROG, the streams or
their history (R253). It reports its completion (D21). -/
def State.resetCommand (s : State) : State :=
  { s with
    tape := [], ptr := ⟨0, Config.tapeLen_pos⟩, pc := 0, jt := [], result := ⟨.ok, 0⟩, stk := [], scan := 0, done := true,
    log := s.log ++ [.reset, .resetDone] }

/-- Hardware reset (R203, R250): the engine's state is that of `State.reset` whatever it was doing; an offer or a request is
withdrawn, no completion is reported; the host's side and the history stay (R59, R253). `rest` is what the host does next. -/
def State.hardwareReset (s : State) (rest : Feed HostMove) : State :=
  { State.reset with
    progMax := s.progMax, moves := rest, input := s.input, accept := s.accept, log := s.log ++ [.construct] }

/-- The start of a step: the DONE pulse of the step before is over (R33), and what the host does next is `rest`. -/
def State.tick (s : State) (rest : Feed HostMove) : State := { s with done := false, moves := rest }

end Sys2Proof.Machine
end

