-- ==== Sys2Proof/Machine/Operands.lean ====
section
/-! DEFINITION. The operand forms, all implicit (R83): PTR and its circular moves, the current cell and its modulo-256
moves (the cell itself is `State.cell` and `State.setCell`), the answer of the input stream as a cell value, and the
jump-table entry of the current index. -/

namespace Sys2Proof.Machine

/-- R140: "if PTR = TAPE_LEN - 1 then PTR <- 0 else PTR <- PTR + 1". -/
def ptrRight (p : Fin Config.tapeLen) : Fin Config.tapeLen :=
  if h : p.val = Config.tapeLen - 1 then ⟨0, Config.tapeLen_pos⟩
  else ⟨p.val + 1, by have := p.isLt; omega⟩

/-- R141: "if PTR = 0 then PTR <- TAPE_LEN - 1 else PTR <- PTR - 1". -/
def ptrLeft (p : Fin Config.tapeLen) : Fin Config.tapeLen :=
  if p.val = 0 then ⟨Config.tapeLen - 1, by have := Config.tapeLen_pos; omega⟩
  else ⟨p.val - 1, by have := p.isLt; omega⟩

/-- R150: 255 gives 0, any other value one more. -/
def cellInc (v : Byte) : Byte := if v = 255#8 then 0#8 else v + 1#8

/-- R151: 0 gives 255, any other value one less. -/
def cellDec (v : Byte) : Byte := if v = 0#8 then 255#8 else v - 1#8

/-- R161: the byte read, unchanged; 0 on end of stream or read failure. -/
def InAnswer.cellValue : InAnswer → Byte
  | .byte b => b
  | .noByte => 0#8

/-- What a `,` does with what the host gives in this step (R161): the answer into the current cell, or nothing yet. -/
def State.takeInput (s : State) : State :=
  match s.inNext with
  | (none, t) => t
  | (some a, t) => t.setCell a.cellValue

/-- `JT[PC]` (R171): the target keyed by the instruction's own index. -/
def State.jumpTarget (s : State) : Option Nat := mapGet s.jt s.pc

end Sys2Proof.Machine
end

