-- ==== Sys2Proof/Machine/CellArith.lean ====
section
/-! DEFINITION. Cell arithmetic (43_cell_arith.md). -/

namespace Sys2Proof.Machine

/-- `+` INC (R150). -/
def execInc (s : State) : Host.Outcome State Fault Refusal := .next (s.setCell (cellInc s.cell))

/-- `-` DEC (R151). -/
def execDec (s : State) : Host.Outcome State Fault Refusal := .next (s.setCell (cellDec s.cell))

end Sys2Proof.Machine
end

