-- ==== Sys2Proof/Machine/InOut.lean ====
section
/-! DEFINITION. Input and output (44_io.md). Both may wait for the host; while they wait `State.waiting` is true and the
dispatch loop dispatches them again. -/

namespace Sys2Proof.Machine

/-- `.` OUT (R160): the current cell as one 8-bit unit (R164). -/
def execOut (s : State) : Host.Outcome State Fault Refusal := .next (s.outPut s.cell)

/-- `,` IN (R161): the next item of the input stream into the current cell. -/
def execInp (s : State) : Host.Outcome State Fault Refusal := .next s.takeInput

end Sys2Proof.Machine
end

