-- ==== Sys2Proof/Machine/Flags.lean ====
section
/-! DEFINITION. The engine has no flags (R37): nothing here is state. The one condition of the instruction set is computed
when `]` executes and not kept. -/

namespace Sys2Proof.Machine

/-- The condition of `]` (R171): the full 8-bit cell under the pointer is not 0. -/
def State.closeTaken (s : State) : Bool := s.cell != 0#8

end Sys2Proof.Machine
end

