-- ==== Sys2Proof/Machine/Loop.lean ====
section
/-! DEFINITION. Loop control (45_loop.md). `[` never jumps (conflict C2); a taken `]` writes the index of its `[` and the
dispatch loop then adds 1 (R173, conflict C4). -/

namespace Sys2Proof.Machine

/-- `[` OPEN (R170): nothing. -/
def execLoopOpen (s : State) : Host.Outcome State Fault Refusal := .next s

/-- `]` CLOSE (R171). The missing entry cannot occur in a run (R175); it is a fault (U23). -/
def execLoopClose (s : State) : Host.Outcome State Fault Refusal :=
  if s.closeTaken then
    match s.jumpTarget with
    | some target => .next { s with pc := target }
    | none => .fault .noJumpEntry
  else .next s

end Sys2Proof.Machine
end

