-- ==== Sys2Proof/Machine/Nop.lean ====
section
/-! DEFINITION. Every other character (46_nop.md). -/

namespace Sys2Proof.Machine

/-- NOP (R180): nothing, whatever the character. -/
def execNop (_code : Code) (s : State) : Host.Outcome State Fault Refusal := .next s

end Sys2Proof.Machine
end

