-- ==== Sys2Proof/Machine/Pointer.lean ====
section
/-! DEFINITION. Pointer movement (42_pointer.md). The program counter's advance is the dispatch loop's (R126). -/

namespace Sys2Proof.Machine

/-- `>` RIGHT (R140). -/
def execRight (s : State) : Host.Outcome State Fault Refusal := .next { s with ptr := ptrRight s.ptr }

/-- `<` LEFT (R141). -/
def execLeft (s : State) : Host.Outcome State Fault Refusal := .next { s with ptr := ptrLeft s.ptr }

end Sys2Proof.Machine
end

