-- ==== Sys2Proof/Machine/Ports.lean ====
section
/-! DEFINITION. What the host sees at the engine's output ports (R192, R196 to R199), all read off the state without side
effect. `done`, `inReq` and `outOffer` are fields of State themselves. -/

namespace Sys2Proof.Machine

/-- `cmd_ready` (R192); clearing the tape is one step (R125), so it is never in progress. -/
def State.cmdReady (s : State) : Bool := s.phase == .idle

/-- BUSY (R31, R196). -/
def State.busy (s : State) : Bool := s.phase != .idle

/-- The encoding of PHASE (R30). -/
def Phase.code : Phase → BitVec 2
  | .idle => 0b00
  | .resolve => 0b01
  | .run => 0b10

/-- The encoding of RESULT.KIND (R32, R196, R220). -/
def ReportKind.code : ReportKind → BitVec 2
  | .ok => 0b00
  | .unmatchedClose => 0b01
  | .unmatchedOpen => 0b10

/-- `res_kind` (R196). -/
def State.resKind (s : State) : BitVec 2 := s.result.kind.code

/-- `res_index` (R196). -/
def State.resIndex (s : State) : Nat := s.result.index

/-- `out_valid` (R198). -/
def State.outValid (s : State) : Bool := s.outOffer.isSome

/-- `obs_cell` (R199): a cell, while the engine is ready for commands and the address is a cell's; the spec gives no value
otherwise (assumption 18). -/
def State.obsCell (s : State) (addr : BitVec 15) : Option Byte :=
  if s.cmdReady && decide (addr.toNat < Config.tapeLen) then some (tapeGet s.tape addr.toNat) else none

/-- `obs_ptr` (R199), usable while the engine is ready for commands. -/
def State.obsPtr (s : State) : Option (BitVec 15) := if s.cmdReady then some (BitVec.ofNat 15 s.ptr.val) else none

/-- `obs_pc` (R199), usable while the engine is ready for commands. -/
def State.obsPc (s : State) : Option Nat := if s.cmdReady then some s.pc else none

end Sys2Proof.Machine
end

