-- ==== Sys2Proof/Machine/Resolver.lean ====
section
/-! DEFINITION. The Loop Resolver (40_loop_resolver.md): the pure function `resolve` of R100 and, over the same treatment of
one character, the engine's stepwise scan in phase RESOLVE (R108, R109). -/

namespace Sys2Proof.Machine

/-- What the scan does with the character `c` at index `i` (R100, R101): `[` is pushed, `]` pops and makes an entry or fails
(R102), every other character is ignored. -/
def scanChar (c : Code) (i : Nat) (stk : List Nat) (jt : List (Nat × Nat)) :
    Except StructuralError (List Nat × List (Nat × Nat)) :=
  match decodeChar c with
  | .loopOpen => .ok (i :: stk, jt)
  | .loopClose =>
    match stk with
    | [] => .error (.unmatchedClose i)
    | o :: below => .ok (below, mapInsert jt i o)
  | .right => .ok (stk, jt)
  | .left => .ok (stk, jt)
  | .inc => .ok (stk, jt)
  | .dec => .ok (stk, jt)
  | .out => .ok (stk, jt)
  | .inp => .ok (stk, jt)
  | .nop _ => .ok (stk, jt)

/-- The scan of the characters `cs`, the first of them at index `i`, from a stack and a table (R101). -/
def scanFrom : List Code → Nat → List Nat → List (Nat × Nat) → Except StructuralError (List Nat × List (Nat × Nat))
  | [], _, stk, jt => .ok (stk, jt)
  | c :: cs, i, stk, jt =>
    match scanChar c i stk jt with
    | .error e => .error e
    | .ok (stk', jt') => scanFrom cs (i + 1) stk' jt'

/-- `Resolve(PROG, PROG_LEN)` (R100). -/
def resolve (src : List Code) : Except StructuralError (List (Nat × Nat)) :=
  match scanFrom src 0 [] [] with
  | .error e => .error e
  | .ok ([], jt) => .ok jt
  | .ok (o :: _, _) => .error (.unmatchedOpen o)

/-- Resolution succeeded (R123): the table stands in JT, the transients are discarded (R40), PHASE <- RUN. -/
def State.startRun (s : State) : State := { s with phase := .run, stk := [], scan := 0 }

/-- One step in phase RESOLVE (R109, assumption 6): one character, or at the end of the scan the verdict. -/
def State.resolveStep (s : State) : State :=
  if s.scan < s.progLen then
    match scanChar (s.progAt s.scan) s.scan s.stk s.jt with
    | .error e => s.raise e
    | .ok (stk, jt) => { s with stk := stk, jt := jt, scan := s.scan + 1 }
  else
    match s.stk with
    | [] => s.startRun
    | o :: _ => s.raise (.unmatchedOpen o)

end Sys2Proof.Machine
end

