-- ==== Sys2Proof/Machine/Sequencer.lean ====
section
/-! DEFINITION. The sequencer (41_sequencer.md) and the command and program ports (47_host_interface.md R192 to R195, R203):
what one step of the machine is. -/

namespace Sys2Proof.Machine

/-- EXECUTE accepted (R121): PROG_LEN, PC, JT and PHASE; the resolver's transients start empty (R40); RESULT, tape and pointer
stay. A launch the host may not make is refused (R194, U2, U8). DESIGN CHOICE (assumption 25): a location written before an
earlier run still holds its character, so that an EXECUTE with nothing written anew runs the old characters. -/
def State.acceptExecute (s : State) (len : Nat) : Host.Outcome State Fault Refusal :=
  if !fitsProgMax s.progMax len then .refused .sourceTooLong
  else if !s.writtenBelow len then .refused .sourceUnwritten
  else
    let t := { s with progLen := len, pc := 0, jt := [], stk := [], scan := 0, phase := .resolve }
    .next (t.record [.execute t.source])

/-- A write at the program port while the engine is ready for commands (R193). -/
def State.writeProgram (s : State) (addr : Nat) (char : Code) : Host.Outcome State Fault Refusal :=
  if isProgAddress s.progMax addr then .next { s with prog := mapInsert s.prog addr char }
  else .refused .progAddressOutside

/-- The fetched and decoded instruction at PC (R126). -/
def State.fetched (s : State) : Instr := decodeChar (s.progAt s.pc)

/-- One dispatch step (R126): fetch, the instruction's effect, the increment. -/
def State.dispatchStep (s : State) : Host.Outcome State Fault Refusal :=
  match exec s.fetched s with
  | .next t => .next t.afterDispatch
  | .fault r => .fault r
  | .refused r => .refused r

/-- The engine's own part of a step, by phase (R120). -/
def State.runEngine (s : State) : Host.Outcome State Fault Refusal :=
  match s.phase with
  | .idle => .next s
  | .resolve => .next s.resolveStep
  | .run =>
    if s.pc < s.progLen then s.dispatchStep
    else if s.pc = s.progLen then .next s.endRun
    else .fault .pcOutsideProgram

/-- One step of engine and host (assumption 7): hardware reset acts in every phase (R203); a command or a program write acts
while the engine is ready (R192, R193); while it is not, a command waits and a program write is ignored. -/
def State.sequencerStep (s : State) : Host.Outcome State Fault Refusal :=
  match s.hostMove with
  | (.hardwareReset, rest) => .next (s.hardwareReset rest)
  | (.pause, rest) => (s.tick rest).runEngine
  | (.progWrite addr char, rest) =>
    if s.cmdReady then (s.tick rest).writeProgram addr char else (s.tick rest).runEngine
  | (.execute len, rest) =>
    if s.cmdReady then (s.tick rest).acceptExecute len else (s.tick (rest.push (.execute len))).runEngine
  | (.reset, rest) =>
    if s.cmdReady then .next (s.tick rest).resetCommand else (s.tick (rest.push .reset)).runEngine

/-- Program-port writes of `src` from address `a` on (R193). -/
def progWritesFrom : List Code → Nat → List HostMove
  | [], _ => []
  | c :: cs, a => .progWrite a c :: progWritesFrom cs (a + 1)

/-- The abstract `Execute(source)` as the pair of actions it stands for (R193): write the source, then EXECUTE. -/
def movesOfSource (src : List Code) : List HostMove := progWritesFrom src 0 ++ [.execute src.length]

/-- `s` in phase RUN with the character `c` at PC inside the Program and nothing waiting there. The host pauses for the one
step, so that no hardware reset preempts it; after it the host does what it would have done (assumption 16). -/
def State.placeAtPc (s : State) (c : Code) : State :=
  { s with
    prog := mapInsert s.prog s.pc c, progLen := max s.progLen (s.pc + 1), phase := .run, inReq := false, outOffer := none,
    moves := s.moves.push .pause }

end Sys2Proof.Machine
end

