-- ==== Sys2Proof/Machine/Step.lean ====
section
/-! DEFINITION. One step of the machine, and the placing of an instruction where the next step fetches it. Both only call
`Machine/Sequencer.lean`. -/

namespace Sys2Proof.Machine

/-- One step (R120, R126). -/
def step (s : State) : Host.Outcome State Fault Refusal := s.sequencerStep

/-- The instruction whose bits are `w` placed where `step` fetches its next one; an instruction is one character (R82). -/
def State.withFetchWord (s : State) (nbits w : Nat) : State := s.placeAtPc (BitVec.ofNat 8 (w % 2 ^ nbits))

end Sys2Proof.Machine
end

