-- ==== Sys2Proof/Safety.lean ====
section
/-! DEFINITION. The terms claims are stated in: the frame of an instruction, balanced sources and matching tables, the legal
event histories of R191, the invariants of the machine, and when two machines agree on everything a run can depend on. -/

namespace Sys2Proof.Machine

/-! ### Outcomes -/

/-- The next state of an outcome, if it is one. -/
def nextOf (o : Host.Outcome State Fault Refusal) : Option State :=
  match o with
  | .next s => some s
  | .fault _ => none
  | .refused _ => none

/-- `f` done to the next state of an outcome; a stop stays as it is. -/
def onNext (f : State → State) (o : Host.Outcome State Fault Refusal) : Host.Outcome State Fault Refusal :=
  match o with
  | .next s => .next (f s)
  | .fault r => .fault r
  | .refused r => .refused r

/-- The meaning of `i` done `n` times in a row, for an instruction that moves no program counter. -/
def execTimes (i : Instr) : Nat → State → Host.Outcome State Fault Refusal
  | 0, s => .next s
  | n + 1, s =>
    match exec i s with
    | .next t => execTimes i n t
    | .fault r => .fault r
    | .refused r => .refused r

/-! ### What an instruction may change -/

/-- The parts of the state some instruction writes. The cell is the one at the pointer. -/
inductive Part where
  | cell
  | ptr
  | pc
  | inReq
  | outOffer
  | input
  | accept
  | log
deriving DecidableEq, Repr

/-- `t` is `s` but for the parts listed; where the cell is listed, every other cell reads as before. JT, PROG, PROG_LEN,
PHASE, RESULT, DONE, STK, SCAN, PROG_MAX and the host's coming moves are in no instruction's reach (R237). -/
structure KeepsAllBut (parts : List Part) (s t : State) : Prop where
  tape : ∀ a, (Part.cell ∈ parts ∧ a = s.ptr.val) ∨ tapeGet t.tape a = tapeGet s.tape a
  ptr : Part.ptr ∈ parts ∨ t.ptr = s.ptr
  pc : Part.pc ∈ parts ∨ t.pc = s.pc
  inReq : Part.inReq ∈ parts ∨ t.inReq = s.inReq
  outOffer : Part.outOffer ∈ parts ∨ t.outOffer = s.outOffer
  input : Part.input ∈ parts ∨ t.input = s.input
  accept : Part.accept ∈ parts ∨ t.accept = s.accept
  log : Part.log ∈ parts ∨ t.log = s.log
  jt : t.jt = s.jt
  prog : t.prog = s.prog
  progLen : t.progLen = s.progLen
  phase : t.phase = s.phase
  result : t.result = s.result
  done : t.done = s.done
  stk : t.stk = s.stk
  scan : t.scan = s.scan
  progMax : t.progMax = s.progMax
  moves : t.moves = s.moves

/-! ### The host's moves -/

/-- Is this move an assertion of hardware reset? -/
def HostMove.isHardwareReset : HostMove → Bool
  | .hardwareReset => true
  | .pause => false
  | .progWrite _ _ => false
  | .execute _ => false
  | .reset => false

/-- Is hardware reset asserted at this step? -/
def State.rstAsserted (s : State) : Bool := s.hostMove.1.isHardwareReset

/-- What the host still has to do after a step in which the engine takes no command: a pause is over, an ignored program
write is gone, a command waits (R192, R193). -/
def State.movesWhileBusy (s : State) : Feed HostMove :=
  match s.hostMove with
  | (.hardwareReset, rest) => rest
  | (.pause, rest) => rest
  | (.progWrite _ _, rest) => rest
  | (.execute len, rest) => rest.push (.execute len)
  | (.reset, rest) => rest.push .reset

/-- A feed after the engine has looked at it `k` times. -/
def feedAfter {α : Type} (draw : Nat → α) : Nat → Feed α → Feed α
  | 0, f => f
  | k + 1, f => feedAfter draw k (feedNext draw f).2

/-- What the host does at a port when the engine looks there for the `k`-th time from now, counted from 0. -/
def feedAt {α : Type} (draw : Nat → α) (f : Feed α) (k : Nat) : α := (feedNext draw (feedAfter draw k f)).1

/-! ### Sources and tables -/

/-- Balanced, properly nested brackets (R90); every other character is ignored (R101). -/
inductive Balanced : List Code → Prop where
  | nil : Balanced []
  | other (c : Code) (rest : List Code) : decodeChar c ≠ .loopOpen → decodeChar c ≠ .loopClose → Balanced rest →
      Balanced (c :: rest)
  | pair (inner rest : List Code) : Balanced inner → Balanced rest →
      Balanced (Config.codeOpen :: inner ++ Config.codeClose :: rest)

/-- The properties of a successful table (R107 (a) to (g)). -/
structure MatchesBrackets (src : List Code) (jt : List (Nat × Nat)) : Prop where
  close : ∀ i o, mapGet jt i = some o → src[i]? = some Config.codeClose
  opener : ∀ i o, mapGet jt i = some o → src[o]? = some Config.codeOpen
  before : ∀ i o, mapGet jt i = some o → o < i
  inside : ∀ i o, mapGet jt i = some o → Balanced ((src.take i).drop (o + 1))
  injective : ∀ i i' o, mapGet jt i = some o → mapGet jt i' = some o → i = i'
  nestedOrDisjoint : ∀ i o i' o', mapGet jt i = some o → mapGet jt i' = some o' → i < i' → (o' < o ∨ i < o')
  total : ∀ i, src[i]? = some Config.codeClose → ∃ o, mapGet jt i = some o

/-! ### Legal event histories (R191) -/

/-- Where a history stands. -/
inductive Stage where
  /-- before construction -/
  | unbuilt
  /-- between calls -/
  | ready
  /-- in a RESET call -/
  | resetting
  /-- in an `Execute` call, nothing outstanding -/
  | calling
  /-- in an `Execute` call, an input request outstanding -/
  | awaitIn
  /-- in an `Execute` call, a unit on offer -/
  | awaitOut (unit : Byte)
deriving DecidableEq, Repr

/-- R191: how one more event moves a history on, if it may come there. -/
def Stage.after : Stage → Event → Option Stage
  | _, .construct => some .ready
  | .ready, .execute _ => some .calling
  | .ready, .reset => some .resetting
  | .resetting, .resetDone => some .ready
  | .calling, .inRequest => some .awaitIn
  | .awaitIn, .inAnswer _ => some .calling
  | .calling, .outUnit b => some (.awaitOut b)
  | .awaitOut b, .outAccept c => if b = c then some .calling else none
  | .calling, .completed _ => some .ready
  | _, _ => none

/-- Where the events `es` lead from a stage; `none` if they are not legal. -/
def stageFrom : Stage → List Event → Option Stage
  | g, [] => some g
  | g, e :: es =>
    match g.after e with
    | none => none
    | some g' => stageFrom g' es

/-- The stage the engine's state says its history is in. -/
def State.stage (s : State) : Stage :=
  match s.phase with
  | .idle => .ready
  | .resolve => .calling
  | .run => if s.inReq then .awaitIn else
    match s.outOffer with
    | some b => .awaitOut b
    | none => .calling

/-- The history is legal and stands where the state says. -/
def State.historyLegal (s : State) : Prop := stageFrom .unbuilt s.log = some s.stage

/-! ### Invariants -/

/-- The canonical forms of the three memories. -/
def State.memoriesWf (s : State) : Prop :=
  Memory.wf s.tape = true ∧ mapSorted s.jt = true ∧ mapSorted s.prog = true

/-- Every position fits the Program, and the Program the engine (R24, R25, R28, R32, R34, R194). -/
structure BoundsInv (s : State) : Prop where
  pc : s.pc ≤ s.progLen
  scan : s.scan ≤ s.progLen
  fits : fitsProgMax s.progMax s.progLen = true
  resultFits : fitsProgMax s.progMax s.result.index = true
  written : s.writtenBelow s.progLen = true
  addresses : ∀ a c, mapGet s.prog a = some c → isProgAddress s.progMax a = true
  table : ∀ e ∈ s.jt, e.1 < s.progLen ∧ e.2 < e.1
  stack : ∀ i ∈ s.stk, i < s.progLen

/-- The resolver's state is that of the scan so far (R100, R109); in RUN the table is that of the Program (R66); outside
RESOLVE the transients are discarded (R34, R35). -/
def ResolverInv (s : State) : Prop :=
  match s.phase with
  | .idle => s.stk = [] ∧ s.scan = 0
  | .resolve => s.pc = 0 ∧ scanFrom (s.source.take s.scan) 0 [] [] = .ok (s.stk, s.jt)
  | .run => s.stk = [] ∧ s.scan = 0 ∧ resolve s.source = .ok s.jt

/-- A request or an offer stands only while its own instruction is at PC (R132, R197, R198), never both, and the unit on
offer is the current cell. -/
structure PortsInv (s : State) : Prop where
  request : s.inReq = true → s.phase = .run ∧ s.pc < s.progLen ∧ s.fetched = .inp ∧ s.outOffer = none
  offer : ∀ v, s.outOffer = some v → s.phase = .run ∧ s.pc < s.progLen ∧ s.fetched = .out ∧ v = s.cell

/-- The invariant of the machine. -/
structure Inv (s : State) : Prop where
  memories : s.memoriesWf
  bounds : BoundsInv s
  resolver : ResolverInv s
  ports : PortsInv s

/-! ### Agreement of two machines -/

/-- `s` and `t` agree on everything but their event histories. -/
def SameButLog (s t : State) : Prop := { s with log := [] } = { t with log := [] }

/-- What R250 says of the engine right after hardware reset. -/
structure FreshEngine (s : State) : Prop where
  tape : ∀ a, tapeGet s.tape a = 0#8
  ptr : s.ptr.val = 0
  pc : s.pc = 0
  jt : ∀ i, mapGet s.jt i = none
  phase : s.phase = .idle
  result : s.result = ⟨.ok, 0⟩
  stk : s.stk = []
  scan : s.scan = 0
  noOutput : s.outOffer = none
  noRequest : s.inReq = false

end Sys2Proof.Machine
end

