-- ==== Sys2Proof/Certificates/Slice0/Obligations.lean ====
section
/-! DEFINITION. The statements for the provers. Each docstring names the rules of spec/ it formalises. -/

open Sys2Proof Sys2Proof.Machine

/-! ### Encoding -/

/-- R92, with `.` and `,` beside it (R85): words written out from the spec's encodings. -/
def Obligations.ExampleWordsDecodeAsWritten : Prop :=
  decodeProgram [0x3E, 0x2B, 0x2B, 0x5B, 0x3C, 0x2B, 0x2B, 0x3E, 0x2D, 0x5D] =
      [.right, .inc, .inc, .loopOpen, .left, .inc, .inc, .right, .dec, .loopClose] ∧
    decodeProgram [0x61, 0x2B, 0x62] = [.nop 0x61, .inc, .nop 0x62] ∧
    decodeChar 0x2E = .out ∧ decodeChar 0x2C = .inp

/-- R81: decoding compares the whole code, zero-extended at any width, and is total. -/
def Obligations.DecodingMatchesEveryBitAtAnyWidth : Prop :=
  (∀ (w : Nat) (c : BitVec w) (other : Instr), 8 ≤ w →
    decodeAt c other =
      if c.toNat = 0x3E then .right
      else if c.toNat = 0x3C then .left
      else if c.toNat = 0x2B then .inc
      else if c.toNat = 0x2D then .dec
      else if c.toNat = 0x2E then .out
      else if c.toNat = 0x2C then .inp
      else if c.toNat = 0x5B then .loopOpen
      else if c.toNat = 0x5D then .loopClose
      else other) ∧
    (∀ other : Instr, decodeAt (0x013E : BitVec 16) other = other) ∧
    ∀ c : Code, decodeChar c = decodeAt c (.nop c)

/-- R80 to R82, R85: no character of a source and no instruction of a program is lost, in either direction. -/
def Obligations.DecodeAndEncodeProgramsAgree : Prop :=
  (∀ is : List Instr, (∀ i ∈ is, i.wellFormed = true) → decodeProgram (encodeProgram is) = is) ∧
    ∀ cs : List Code, encodeProgram (decodeProgram cs) = cs ∧ ∀ i ∈ decodeProgram cs, i.wellFormed = true

/-- R86: a code other than the eight is a no-op that takes its place: it is dispatched, it moves PC by 1, and the scan counts
its index. -/
def Obligations.EveryOtherCharacterOnlyTakesItsPlace : Prop :=
  ∀ c : Code, c ∉ instrCodes →
    decodeChar c = .nop c ∧
    (∀ s : State, exec (.nop c) s = .next s) ∧
    (∀ s : State, s.phase = .run → s.pc < s.progLen → s.rstAsserted = false → s.waiting = false → s.progAt s.pc = c →
      step s = .next { s.tick s.movesWhileBusy with pc := s.pc + 1 }) ∧
    ∀ cs i stk jt, scanFrom (c :: cs) i stk jt = scanFrom cs (i + 1) stk jt

/-! ### Resets and commands -/

/-- R250: the state right after hardware reset, whenever it is asserted; and no program runs until an EXECUTE. -/
def Obligations.HardwareResetGivesTheFreshEngine : Prop :=
  FreshEngine State.reset ∧
    (∀ (s : State) (rest : Feed HostMove), s.hostMove = (.hardwareReset, rest) →
      ∃ t, step s = .next t ∧ FreshEngine t ∧ t.moves = rest) ∧
    ∀ s t : State, s.phase = .idle → step s = .next t → (∀ n, s.hostMove.1 ≠ .execute n) → t.phase = .idle

/-- R203: what hardware reset leaves alone: delivered units stay delivered, an offer or a request outstanding is withdrawn
and delivers or consumes nothing, and there is no completion report. That the host's side of the streams and PROG_MAX stay is
the model's reading (assumption 19, and 1 for the field). -/
def Obligations.HardwareResetWithdrawsAndReportsNothing : Prop :=
  ∀ (s : State) (rest : Feed HostMove), s.hostMove = (.hardwareReset, rest) →
    ∃ t, step s = .next t ∧ FreshEngine t ∧ t.log = s.log ++ [.construct] ∧ t.outHistory = s.outHistory ∧
      t.inPosition = s.inPosition ∧ t.input = s.input ∧ t.accept = s.accept ∧ t.progMax = s.progMax ∧ t.outOffer = none ∧
      t.inReq = false ∧ t.done = false

/-- R124: RESET in IDLE. -/
def Obligations.ResetCommandZeroesTheEngine : Prop :=
  ∀ (s : State) (rest : Feed HostMove), s.phase = .idle → s.hostMove = (.reset, rest) →
    ∃ t, step s = .next t ∧ (∀ a, tapeGet t.tape a = 0#8) ∧ t.ptr.val = 0 ∧ t.pc = 0 ∧ (∀ i, mapGet t.jt i = none) ∧
      t.result = ⟨.ok, 0⟩ ∧ t.phase = .idle ∧ t.done = true ∧ t.log = s.log ++ [.reset, .resetDone] ∧
      t.input = s.input ∧ t.accept = s.accept ∧ t.inPosition = s.inPosition ∧ t.outHistory = s.outHistory ∧ t.moves = rest

/-- R192, R193: EXECUTE accepted at the command port, for the characters the program memory holds. -/
def Obligations.ExecuteIsAcceptedInIdle : Prop :=
  ∀ (s : State) (n : Nat) (rest : Feed HostMove), s.phase = .idle → s.hostMove = (.execute n, rest) →
    fitsProgMax s.progMax n = true → s.writtenBelow n = true →
    ∃ t, step s = .next t ∧ t.progLen = n ∧ (∀ i, t.progAt i = s.progAt i) ∧ t.pc = 0 ∧ (∀ i, mapGet t.jt i = none) ∧
      t.phase = .resolve ∧ t.stk = [] ∧ t.scan = 0 ∧ t.tape = s.tape ∧ t.ptr = s.ptr ∧ t.result = s.result ∧
      t.input = s.input ∧ t.outHistory = s.outHistory ∧ t.inPosition = s.inPosition ∧ t.done = false ∧ t.moves = rest

/-- R121 over the pair of port actions that `Execute(source)` stands for (R193). -/
def Obligations.ExecuteOfASourceStartsItsRun : Prop :=
  ∀ (s : State) (src : List Code) (items : List HostMove) (r : Rest HostMove), s.phase = .idle →
    s.moves = ⟨movesOfSource src ++ items, r⟩ →
    fitsProgMax s.progMax src.length = true →
    ∃ t : State, core.run (src.length + 1) s = .next t ∧ t.source = src ∧ t.progLen = src.length ∧ t.pc = 0 ∧
      (∀ i, mapGet t.jt i = none) ∧ t.phase = .resolve ∧ t.tape = s.tape ∧ t.ptr = s.ptr ∧ t.result = s.result ∧
      t.input = s.input ∧ t.log = s.log ++ [.execute src] ∧ t.outHistory = s.outHistory ∧ t.moves = ⟨items, r⟩

/-- R194 (a), (b), U2, U8: the launches and writes the host may not make are refused, each by its name. -/
def Obligations.ForbiddenLaunchesAreRefused : Prop :=
  (∀ (s : State) (n : Nat) (rest : Feed HostMove), s.phase = .idle → s.hostMove = (.execute n, rest) →
      fitsProgMax s.progMax n = false → step s = .refused .sourceTooLong) ∧
    (∀ (s : State) (n i : Nat) (rest : Feed HostMove), s.phase = .idle → s.hostMove = (.execute n, rest) →
      fitsProgMax s.progMax n = true → i < n → mapGet s.prog i = none → step s = .refused .sourceUnwritten) ∧
    ∀ (s : State) (a : Nat) (c : Code) (rest : Feed HostMove), s.phase = .idle → s.hostMove = (.progWrite a c, rest) →
      isProgAddress s.progMax a = false → step s = .refused .progAddressOutside

/-- R193: a program write in IDLE sets its location and nothing else. -/
def Obligations.ProgramWriteSetsOneLocation : Prop :=
  ∀ (s : State) (a : Nat) (c : Code) (rest : Feed HostMove), s.phase = .idle → s.hostMove = (.progWrite a c, rest) →
    isProgAddress s.progMax a = true →
    ∃ t, step s = .next t ∧ t.progAt a = c ∧ (∀ b, b ≠ a → t.progAt b = s.progAt b) ∧ t.moves = rest ∧
      { t with prog := s.prog, moves := s.moves, done := s.done } = s

/-- R192, R193, R195: while a run is in progress a command waits without acting on it, and a program write is ignored. -/
def Obligations.HostMovesDoNotTouchARun : Prop :=
  ∀ s : State, s.phase ≠ .idle → s.hostMove.1 ≠ .hardwareReset →
    step s = onNext (fun t => { t with moves := s.movesWhileBusy }) (step { s with moves := noMoves })

/-! ### The Loop Resolver -/

/-- R90, R105: resolution succeeds exactly on the balanced sources, with one entry per closing bracket. -/
def Obligations.ResolutionSucceedsExactlyOnBalancedSources : Prop :=
  (∀ src : List Code, (∃ jt, resolve src = .ok jt) ↔ Balanced src) ∧
    ∀ (src : List Code) (jt : List (Nat × Nat)), resolve src = .ok jt →
      jt.length = src.count Config.codeClose ∧ src.count Config.codeOpen = src.count Config.codeClose

/-- R107 (a) to (g). -/
def Obligations.ResolvedTableMatchesTheBrackets : Prop :=
  ∀ (src : List Code) (jt : List (Nat × Nat)), resolve src = .ok jt → MatchesBrackets src jt

/-- R102: the index reported is that of the leftmost `]` with no unmatched `[` before it. -/
def Obligations.UnmatchedCloseIsTheLeftmost : Prop :=
  ∀ (src : List Code) (i : Nat), resolve src = .error (.unmatchedClose i) ↔
    src[i]? = some Config.codeClose ∧ Balanced (src.take i)

/-- R103: the index reported is that of the rightmost `[` never matched, and no `]` was unmatched. -/
def Obligations.UnmatchedOpenIsTheLastPushed : Prop :=
  ∀ (src : List Code) (i : Nat), resolve src = .error (.unmatchedOpen i) ↔
    src[i]? = some Config.codeOpen ∧ Balanced (src.drop (i + 1)) ∧ ∀ k, resolve src ≠ .error (.unmatchedClose k)

/-- R104, R227: a source with both defects reports the unmatched `]`, wherever it stands. -/
def Obligations.UnmatchedCloseTakesPrecedence : Prop :=
  ∀ (src : List Code) (i : Nat), src[i]? = some Config.codeClose → Balanced (src.take i) → ∀ rest : List Code,
    resolve (src ++ rest) = .error (.unmatchedClose i)

/-- R108, R109, R122, R123, R232: from the start of RESOLVE the stepwise scan ends, in at most PROG_LEN + 1 steps, with
exactly what the pure `Resolve` says of the source: the table in RUN, or the error's report in IDLE. -/
def Obligations.StepwiseScanComputesResolve : Prop :=
  ∀ s : State, s.phase = .resolve → s.scan = 0 → s.stk = [] → s.jt = [] → s.pc = 0 → s.moves = noMoves →
    ∃ (k : Nat) (t : State), k ≤ s.progLen + 1 ∧ core.run k s = .next t ∧
      (match resolve s.source with
        | .ok jt => t = { s with phase := .run, jt := jt, done := false }
        | .error e =>
          t = { s with
            phase := .idle, result := e.report, done := true, log := s.log ++ [.completed e.report] })

/-- R231: what the engine does when the resolver raises an error. -/
def Obligations.StructuralErrorEndsTheRunWithItsReport : Prop :=
  ∀ (s : State) (e : StructuralError), s.phase = .resolve → s.rstAsserted = false →
    ((s.scan < s.progLen ∧ scanChar (s.progAt s.scan) s.scan s.stk s.jt = .error e) ∨
      (s.progLen ≤ s.scan ∧ ∃ o below, s.stk = o :: below ∧ e = .unmatchedOpen o)) →
    ∃ t, step s = .next t ∧ t.result.kind = e.kind ∧ t.result.index = e.index ∧ (∀ i, mapGet t.jt i = none) ∧ t.pc = 0 ∧
      t.phase = .idle ∧ t.log = s.log ++ [.completed ⟨e.kind, e.index⟩] ∧ t.done = true ∧ t.tape = s.tape ∧
      t.ptr = s.ptr ∧ t.outHistory = s.outHistory ∧ t.input = s.input

/-- R34, R35, R40: when RESOLVE ends, whichever way, the stack and the scan index are discarded: empty and 0, the model's
reading (assumption 15). -/
def Obligations.LeavingResolveDiscardsTheTransients : Prop :=
  ∀ s t : State, step s = .next t → s.phase = .resolve → t.phase ≠ .resolve → t.stk = [] ∧ t.scan = 0

/-! ### The dispatch loop -/

/-- R126, with the wait of R132: a step in RUN below PROG_LEN is the meaning of the instruction decoded at PC, then PC + 1,
unless the instruction is waiting for the host. Around it the step ends the DONE pulse of the step before and takes the
host's move (`State.tick`). -/
def Obligations.StepRunsTheDecodedInstruction : Prop :=
  ∀ (s : State) (i : Instr), s.phase = .run → s.pc < s.progLen → s.rstAsserted = false →
    decode [s.progAt s.pc] = .ok (i, []) →
    i.wellFormed = true ∧
      step s = onNext (fun t => if t.waiting then t else { t with pc := t.pc + 1 }) (exec i (s.tick s.movesWhileBusy))

/-- R127: the end of a run, and that no run which passed resolution ends in any other way (hardware reset abandons a run, R203). -/
def Obligations.RunEndsAtTheProgramLength : Prop :=
  (∀ s : State, s.phase = .run → s.pc = s.progLen → s.rstAsserted = false →
    ∃ t, step s = .next t ∧ t.result = ⟨.ok, 0⟩ ∧ t.phase = .idle ∧ t.log = s.log ++ [.completed ⟨.ok, 0⟩] ∧
      t.done = true ∧ t.pc = s.progLen ∧ t.jt = s.jt ∧ t.tape = s.tape ∧ t.ptr = s.ptr ∧ t.outHistory = s.outHistory ∧
      t.input = s.input) ∧
    ∀ s t : State, s.phase = .run → s.rstAsserted = false → step s = .next t → t.phase ≠ .run → s.pc = s.progLen

/-- R129: an empty source ends at once with success and no dispatch step. -/
def Obligations.EmptySourceEndsAtOnce : Prop :=
  ∀ s : State, s.phase = .idle → s.moves = noMoves.push (.execute 0) →
    ∃ t : State, core.run 3 s = .next t ∧ t.phase = .idle ∧ t.result = ⟨.ok, 0⟩ ∧
      t.log = s.log ++ [.execute [], .completed ⟨.ok, 0⟩] ∧ t.tape = s.tape ∧ t.ptr = s.ptr ∧ t.pc = 0 ∧ t.progLen = 0 ∧
      t.jt = []

/-! ### The instructions: result, completion and frame -/

/-- R140. -/
def Obligations.RightMovesThePointerCircularly : Prop :=
  decodeChar 0x3E = .right ∧
    (∀ s : State, ∃ t, exec .right s = .next t ∧
      t.ptr.val = (if s.ptr.val = Config.tapeLen - 1 then 0 else s.ptr.val + 1) ∧
      t.ptr.val = (s.ptr.val + 1) % Config.tapeLen ∧ KeepsAllBut [.ptr] s t ∧ t.tape = s.tape) ∧
    ∀ s : State, execTimes .right Config.tapeLen s = .next s

/-- R141. -/
def Obligations.LeftMovesThePointerCircularly : Prop :=
  decodeChar 0x3C = .left ∧
    ∀ s : State, ∃ t, exec .left s = .next t ∧
      t.ptr.val = (if s.ptr.val = 0 then Config.tapeLen - 1 else s.ptr.val - 1) ∧
      t.ptr.val = (s.ptr.val + Config.tapeLen - 1) % Config.tapeLen ∧ KeepsAllBut [.ptr] s t ∧ t.tape = s.tape

/-- R142: the pointer is an element of the integers modulo TAPE_LEN. -/
def Obligations.PointerMovesFormARing : Prop :=
  (∀ s : State, ∃ t, exec .right s = .next t ∧ exec .left t = .next s) ∧
    (∀ s : State, ∃ t, exec .left s = .next t ∧ exec .right t = .next s) ∧
    ∀ (k : Nat) (s : State), ∃ t, execTimes .right k s = .next t ∧
      t.ptr.val = (s.ptr.val + k) % Config.tapeLen ∧ t.ptr.val < Config.tapeLen ∧ KeepsAllBut [.ptr] s t

/-- R150. -/
def Obligations.IncAddsOneModulo256 : Prop :=
  decodeChar 0x2B = .inc ∧
    (∀ s : State, ∃ t, exec .inc s = .next t ∧
      (tapeGet t.tape s.ptr.val).toNat = (if s.cell.toNat = 255 then 0 else s.cell.toNat + 1) ∧
      (tapeGet t.tape s.ptr.val).toNat = (s.cell.toNat + 1) % 256 ∧ KeepsAllBut [.cell] s t) ∧
    ∀ s : State, ∃ t, execTimes .inc 256 s = .next t ∧ t.cell = s.cell ∧ KeepsAllBut [] s t

/-- R151. -/
def Obligations.DecSubtractsOneModulo256 : Prop :=
  decodeChar 0x2D = .dec ∧
    ∀ s : State, ∃ t, exec .dec s = .next t ∧
      (tapeGet t.tape s.ptr.val).toNat = (if s.cell.toNat = 0 then 255 else s.cell.toNat - 1) ∧
      (tapeGet t.tape s.ptr.val).toNat = (s.cell.toNat + 255) % 256 ∧ KeepsAllBut [.cell] s t

/-- R152 (a), (e): repeated increments add modulo 256, and the two are mutual inverses, on canonical tapes to the letter. -/
def Obligations.CellMovesFormARing : Prop :=
  (∀ (k : Nat) (s : State), ∃ t, execTimes .inc k s = .next t ∧ t.cell.toNat = (s.cell.toNat + k) % 256 ∧
      KeepsAllBut [.cell] s t) ∧
    (∀ s : State, ∃ t u, exec .inc s = .next t ∧ exec .dec t = .next u ∧ KeepsAllBut [] s u ∧
      (Memory.wf s.tape = true → u = s)) ∧
    ∀ s : State, ∃ t u, exec .dec s = .next t ∧ exec .inc t = .next u ∧ KeepsAllBut [] s u ∧
      (Memory.wf s.tape = true → u = s)

/-- R160: `.` when the host takes the unit; and it never fails. -/
def Obligations.OutDeliversTheCell : Prop :=
  decodeChar 0x2E = .out ∧
    (∀ s : State, s.hostAccept.1 = true → ∃ t, exec .out s = .next t ∧
      t.outHistory = s.outHistory ++ [s.cell] ∧ t.outOffer = none ∧ t.accept = s.hostAccept.2 ∧
      t.inPosition = s.inPosition ∧ t.inRequests = s.inRequests ∧ t.tape = s.tape ∧
      KeepsAllBut [.outOffer, .accept, .log] s t) ∧
    ∀ s : State, ∃ t, exec .out s = .next t

/-- R161: `,` when the host answers; and it never fails. -/
def Obligations.InpStoresTheAnswer : Prop :=
  decodeChar 0x2C = .inp ∧
    (∀ (s : State) (b : Byte), s.hostAnswer.1 = some (.byte b) → ∃ t, exec .inp s = .next t ∧
      tapeGet t.tape s.ptr.val = b ∧ t.inPosition = s.inPosition + 1 ∧ t.inReq = false ∧
      t.input = s.hostAnswer.2 ∧ t.outHistory = s.outHistory ∧ KeepsAllBut [.cell, .inReq, .input, .log] s t) ∧
    (∀ s : State, s.hostAnswer.1 = some .noByte → ∃ t, exec .inp s = .next t ∧
      tapeGet t.tape s.ptr.val = 0#8 ∧ t.inPosition = s.inPosition ∧ t.inReq = false ∧
      t.input = s.hostAnswer.2 ∧ t.outHistory = s.outHistory ∧ KeepsAllBut [.cell, .inReq, .input, .log] s t) ∧
    ∀ s : State, ∃ t, exec .inp s = .next t

/-- R132, R162, R163, R197, R198: while `.` or `,` waits, only its port changes: nothing is delivered or consumed, and the
step leaves PC at the instruction (assumption 12). -/
def Obligations.WaitingChangesOnlyThePort : Prop :=
  (∀ s : State, s.hostAccept.1 = false → ∃ t, exec .out s = .next t ∧ t.outOffer = some s.cell ∧
      t.outHistory = s.outHistory ∧ t.tape = s.tape ∧ t.waiting = true ∧ KeepsAllBut [.outOffer, .accept, .log] s t) ∧
    (∀ s : State, s.hostAnswer.1 = none → ∃ t, exec .inp s = .next t ∧ t.inReq = true ∧
      t.inPosition = s.inPosition ∧ t.tape = s.tape ∧ t.waiting = true ∧ KeepsAllBut [.inReq, .input, .log] s t) ∧
    ∀ s : State, s.phase = .run → s.pc < s.progLen → s.rstAsserted = false →
      (s.fetched = .out ∧ s.hostAccept.1 = false ∨ s.fetched = .inp ∧ s.hostAnswer.1 = none) →
      ∃ t, step s = .next t ∧ t.pc = s.pc ∧ t.phase = .run ∧ t.tape = s.tape ∧ t.ptr = s.ptr ∧ t.jt = s.jt ∧
        t.outHistory = s.outHistory ∧ t.inPosition = s.inPosition

/-- R163, R166: one request for each `,`, however long the host takes, and each `,` stores what its own request returns. That
each attempt is a step of the machine is the model's reading (assumption 12). -/
def Obligations.OneRequestPerInp : Prop :=
  ∀ (s : State) (waits : Nat) (a : InAnswer), s.phase = .run → s.pc < s.progLen →
    s.fetched = .inp → s.inReq = false → s.outOffer = none → s.moves = noMoves →
    (∀ k, k < waits → feedAt Config.hostAnswer s.input k = none) → feedAt Config.hostAnswer s.input waits = some a →
    ∃ t : State, core.run (waits + 1) s = .next t ∧ t.pc = s.pc + 1 ∧ tapeGet t.tape s.ptr.val = a.cellValue ∧
      t.input = feedAfter Config.hostAnswer (waits + 1) s.input ∧ t.inReq = false ∧
      t.log = s.log ++ [.inRequest, .inAnswer a]

/-- R162, R198: one unit for each `.`, delivered exactly once, however long the host takes. That each attempt is a step of
the machine is the model's reading (assumption 12). -/
def Obligations.OneUnitPerOut : Prop :=
  ∀ (s : State) (waits : Nat), s.phase = .run → s.pc < s.progLen →
    s.fetched = .out → s.inReq = false → s.outOffer = none → s.moves = noMoves →
    (∀ k, k < waits → feedAt Config.hostAccepts s.accept k = false) → feedAt Config.hostAccepts s.accept waits = true →
    ∃ t : State, core.run (waits + 1) s = .next t ∧ t.pc = s.pc + 1 ∧ t.tape = s.tape ∧
      t.accept = feedAfter Config.hostAccepts (waits + 1) s.accept ∧ t.outOffer = none ∧
      t.log = s.log ++ [.outUnit s.cell, .outAccept s.cell] ∧ t.outHistory = s.outHistory ++ [s.cell]

/-- R197, R166, R200: a port's feed gives the listed items in order and then what its rest says: one thing for ever, or the
port's free values one after the other, each once and from the `n`-th on. What those are no statement knows (assumptions 7,
8 and 9). -/
def Obligations.FeedsGiveTheHostsChoicesInOrder : Prop :=
  ∀ (α : Type) (draw : Nat → α) (items : List α),
    (∀ (r : Rest α) (k : Nat) (h : k < items.length), feedAt draw ⟨items, r⟩ k = items[k]) ∧
      (∀ (a : α) (k : Nat), feedAt draw ⟨items, .always a⟩ (items.length + k) = a) ∧
      ∀ n k : Nat, feedAt draw ⟨items, .drawn n⟩ (items.length + k) = draw (n + k)

/-- R170: `[` does nothing, whatever the cell. -/
def Obligations.OpenDoesNothing : Prop :=
  decodeChar 0x5B = .loopOpen ∧
    (∀ s : State, exec .loopOpen s = .next s) ∧
    (∀ s : State, s.phase = .run → s.pc < s.progLen → s.rstAsserted = false → s.waiting = false →
      s.progAt s.pc = 0x5B → step s = .next { s.tick s.movesWhileBusy with pc := s.pc + 1 }) ∧
    ∀ cs i stk jt, scanFrom (0x5B :: cs) i stk jt = scanFrom cs (i + 1) (i :: stk) jt

/-- R171, R173: `]`, its effect and its frame, and the net effect of its whole step: a taken `]` resumes just past its `[`,
in one step. -/
def Obligations.CloseJumpsBackWhileTheCellIsNotZero : Prop :=
  decodeChar 0x5D = .loopClose ∧
    (∀ s : State, s.cell.toNat = 0 → exec .loopClose s = .next s) ∧
    (∀ (s : State) (o : Nat), s.cell.toNat ≠ 0 → mapGet s.jt s.pc = some o →
      ∃ t, exec .loopClose s = .next t ∧ t.pc = o ∧ t.tape = s.tape ∧ KeepsAllBut [.pc] s t) ∧
    (∀ s : State, s.phase = .run → s.pc < s.progLen → s.rstAsserted = false → s.waiting = false →
      s.progAt s.pc = 0x5D → s.cell.toNat = 0 → step s = .next { s.tick s.movesWhileBusy with pc := s.pc + 1 }) ∧
    ∀ (s : State) (o : Nat), s.phase = .run → s.pc < s.progLen → s.rstAsserted = false → s.waiting = false →
      s.progAt s.pc = 0x5D → s.cell.toNat ≠ 0 → mapGet s.jt s.pc = some o →
      step s = .next { s.tick s.movesWhileBusy with pc := o + 1 }

/-- U23 (R175) and R128, the model's choice (assumptions 13 and 14): where no rule says how to go on, the machine stops by
name; `EveryRunStepIsEnabled` shows that no run comes there. -/
def Obligations.StatesWithoutARuleStopByName : Prop :=
  (∀ s : State, s.cell.toNat ≠ 0 → mapGet s.jt s.pc = none → exec .loopClose s = .fault .noJumpEntry) ∧
    ∀ s : State, s.phase = .run → s.progLen < s.pc → s.rstAsserted = false → step s = .fault .pcOutsideProgram

/-! ### Invariants -/

/-- R40, R250, R254: the reset state meets the machine's invariant, and its history is legal. -/
def Obligations.ResetMeetsTheInvariant : Prop := Inv State.reset ∧ State.reset.historyLegal

/-- R22, R23: every step keeps the tape in canonical form. -/
def Obligations.StepKeepsTheTapeCanonical : Prop :=
  ∀ s t : State, Memory.wf s.tape = true → step s = .next t → Memory.wf t.tape = true

/-- R22: in canonical form equal memories are equal data. -/
def Obligations.CanonicalTapesReadingAlikeAreEqual : Prop :=
  ∀ m n : List Host.Cell, Memory.wf m = true → Memory.wf n = true → (∀ a, tapeGet m a = tapeGet n a) → m = n

/-- R24, R25, R28, R34, R35, R66, R132, R194: every step keeps the machine's invariant. -/
def Obligations.StepKeepsTheInvariant : Prop :=
  ∀ s t : State, Inv s → step s = .next t → Inv t

/-- R130, R201 (a): in a run nothing faults and nothing is refused: every step is enabled. -/
def Obligations.EveryRunStepIsEnabled : Prop :=
  ∀ s : State, Inv s → s.phase ≠ .idle → ∃ t, step s = .next t

/-- R175: in RUN the lookup of a `]` cannot miss. -/
def Obligations.JumpLookupCannotMiss : Prop :=
  ∀ s : State, Inv s → s.phase = .run → ∀ i, i < s.progLen → s.progAt i = 0x5D →
    ∃ o, mapGet s.jt i = some o ∧ o < i ∧ s.progAt o = 0x5B

/-- R191: every step keeps the history of events legal: calls do not overlap, each request is answered and each unit accepted
before anything else, and a run has at most one completion. -/
def Obligations.StepKeepsTheHistoryLegal : Prop :=
  ∀ s t : State, Inv s → s.historyLegal → step s = .next t → t.historyLegal

/-- R5, R6, R21, R24, R25, R28, R32, R34, R35, R110: every position fits its register, in the table and on the stack too, and
the stack its capacity. -/
def Obligations.PositionsFitTheirRegisters : Prop :=
  ∀ (s : State) (m : Nat), Inv s → s.progMax = some m →
    s.pc < 2 ^ Config.pcW m ∧ s.progLen < 2 ^ Config.pcW m ∧ s.scan < 2 ^ Config.pcW m ∧
      s.result.index < 2 ^ Config.pcW m ∧ s.ptr.val < 2 ^ Config.ptrW ∧
      (∀ e ∈ s.jt, e.1 < 2 ^ Config.pcW m ∧ e.2 < 2 ^ Config.pcW m) ∧ (∀ i ∈ s.stk, i < 2 ^ Config.pcW m) ∧
      s.stk.length ≤ m

/-! ### Rules of the whole machine -/

/-- R120: the phase moves by these transitions and no others (the scan's own steps in RESOLVE are the stepwise view of
R109). -/
def Obligations.PhaseMovesOnlyAsListed : Prop :=
  ∀ s t : State, step s = .next t →
    (s.rstAsserted = true ∧ t.phase = .idle) ∨
    (s.phase = .idle ∧ (∃ n, s.hostMove.1 = .execute n) ∧ t.phase = .resolve) ∨
    (s.phase = .idle ∧ (∀ n, s.hostMove.1 ≠ .execute n) ∧ t.phase = .idle) ∨
    (s.phase = .resolve ∧ s.scan < s.progLen ∧ t.phase = .resolve ∧ t.scan = s.scan + 1) ∨
    (s.phase = .resolve ∧ t.phase = .idle ∧ t.result.kind ≠ .ok) ∨
    (s.phase = .resolve ∧ s.progLen ≤ s.scan ∧ s.stk = [] ∧ t.phase = .run) ∨
    (s.phase = .run ∧ s.pc < s.progLen ∧ t.phase = .run) ∨
    (s.phase = .run ∧ s.pc = s.progLen ∧ t.phase = .idle ∧ t.result = ⟨.ok, 0⟩)

/-- R6, D5: the size of the engine is a parameter: no step changes it (assumption 1), hardware reset (assumption 19) among
them. -/
def Obligations.ProgMaxNeverChanges : Prop :=
  ∀ s t : State, step s = .next t → t.progMax = s.progMax

/-- R27, R65, R195: from the acceptance of EXECUTE to the completion the Program does not change, and in RUN neither does
the Jump Table. -/
def Obligations.ProgramIsFixedDuringARun : Prop :=
  ∀ s t : State, step s = .next t → s.phase ≠ .idle → s.rstAsserted = false →
    t.prog = s.prog ∧ t.progLen = s.progLen ∧ t.source = s.source ∧ (s.phase = .run → t.jt = s.jt)

/-- What becomes of the program memory from one run to the next, on which R26 and D12 differ from R40 and R194(b): the model's
choice (assumption 25), that it stays as written. Without hardware reset only a program write changes PROG and only an EXECUTE
changes PROG_LEN, both in IDLE; and an EXECUTE right after a run, with nothing written anew, starts the same source again. -/
def Obligations.ProgramMemoryStaysUntilWrittenAnew : Prop :=
  (∀ s t : State, step s = .next t → s.rstAsserted = false →
      ((∀ a c, s.hostMove.1 = .progWrite a c → s.phase ≠ .idle) → t.prog = s.prog) ∧
        ((∀ n, s.hostMove.1 = .execute n → s.phase ≠ .idle) → t.progLen = s.progLen)) ∧
    ∀ (s : State) (items : List HostMove) (r : Rest HostMove), s.phase = .run → s.pc = s.progLen →
      s.moves = ⟨.pause :: .execute s.progLen :: items, r⟩ → fitsProgMax s.progMax s.progLen = true →
      s.writtenBelow s.progLen = true →
      ∃ t : State, core.run 2 s = .next t ∧ t.phase = .resolve ∧ t.source = s.source ∧ t.pc = 0 ∧ t.tape = s.tape ∧
        t.ptr = s.ptr ∧ t.log = s.log ++ [.completed ⟨.ok, 0⟩, .execute s.source]

/-- R22, R41, R58: outside RUN only RESET and hardware reset touch the tape or the pointer. -/
def Obligations.TapeAndPointerPersistOutsideRun : Prop :=
  ∀ s t : State, step s = .next t → s.phase ≠ .run → s.rstAsserted = false →
    (s.hostMove.1 = .reset → s.phase ≠ .idle) → t.tape = s.tape ∧ t.ptr = s.ptr

/-- R22, R57: a step in RUN writes no cell but the one at the pointer, and that only for `+`, `-` and `,`. -/
def Obligations.RunWritesOnlyTheCurrentCell : Prop :=
  ∀ s t : State, step s = .next t → s.phase = .run → s.rstAsserted = false →
    ∀ a, tapeGet t.tape a ≠ tapeGet s.tape a →
      a = s.ptr.val ∧ s.pc < s.progLen ∧ (s.fetched = .inc ∨ s.fetched = .dec ∨ s.fetched = .inp)

/-- R21: the pointer is written by `>` and `<`, by RESET and by hardware reset, and by nothing else. -/
def Obligations.PointerMovesOnlyByItsInstructions : Prop :=
  ∀ s t : State, step s = .next t → t.ptr ≠ s.ptr →
    s.rstAsserted = true ∨ (s.phase = .idle ∧ s.hostMove.1 = .reset) ∨
      (s.phase = .run ∧ s.pc < s.progLen ∧ (s.fetched = .right ∨ s.fetched = .left))

/-- R59: nothing delivered is ever retracted, by any step, the resets among them. -/
def Obligations.HistoryOnlyGrows : Prop :=
  ∀ s t : State, step s = .next t → (∃ es, t.log = s.log ++ es) ∧ s.outHistory <+: t.outHistory ∧
    s.inPosition ≤ t.inPosition

/-- R36, R163, R190: the streams move only when a `.` or a `,` is dispatched: no read-ahead, no write-behind. -/
def Obligations.StreamsMoveOnlyByTheirInstructions : Prop :=
  ∀ s t : State, step s = .next t →
    (t.outHistory ≠ s.outHistory → s.phase = .run ∧ s.pc < s.progLen ∧ s.fetched = .out) ∧
    (t.accept ≠ s.accept → s.phase = .run ∧ s.pc < s.progLen ∧ s.fetched = .out) ∧
    (t.input ≠ s.input → s.phase = .run ∧ s.pc < s.progLen ∧ s.fetched = .inp) ∧
    (t.inPosition ≠ s.inPosition → s.phase = .run ∧ s.pc < s.progLen ∧ s.fetched = .inp)

/-- R32, R196: RESULT changes only in a step that ends a run or resets the engine. -/
def Obligations.ResultIsStableBetweenCompletions : Prop :=
  ∀ s t : State, step s = .next t → t.result ≠ s.result →
    s.rstAsserted = true ∨ (s.phase = .idle ∧ s.hostMove.1 = .reset) ∨
      t.log = s.log ++ [.completed t.result]

/-- R33, R196: DONE pulses in exactly the steps that complete a run or a RESET. -/
def Obligations.DonePulsesExactlyAtCompletions : Prop :=
  ∀ s t : State, step s = .next t →
    (t.done = true ↔ (∃ r, t.log = s.log ++ [.completed r]) ∨ t.log = s.log ++ [.reset, .resetDone])

/-- R134: what a machine does, and every event it adds, depends on its state and its host and not on its past. -/
def Obligations.RunsDependOnlyOnTheState : Prop :=
  ∀ (k : Nat) (s t s' : State), SameButLog s t → core.run k s = .next s' →
    ∃ (t' : State) (es : List Event), core.run k t = .next t' ∧ SameButLog s' t' ∧ s'.log = s.log ++ es ∧ t'.log = t.log ++ es

/-- R30 to R32, R192, R196, R198, R199: what the engine's ports show: the command port, the phase and its codes, the completion
port, the output port, the observation port. That the observation port shows nothing outside IDLE is the model's choice
(assumption 18). -/
def Obligations.PortsShowTheState : Prop :=
  (∀ s : State, s.busy = true ↔ s.phase ≠ .idle) ∧ (∀ s : State, s.cmdReady = !s.busy) ∧
    (Phase.idle.code = 0b00#2 ∧ Phase.resolve.code = 0b01#2 ∧ Phase.run.code = 0b10#2) ∧
    (∀ s : State, s.resKind = 0b00#2 ↔ s.result.kind = .ok) ∧
    (∀ s : State, s.resKind = 0b01#2 ↔ s.result.kind = .unmatchedClose) ∧
    (∀ s : State, s.resKind = 0b10#2 ↔ s.result.kind = .unmatchedOpen) ∧
    (∀ s : State, s.resIndex = s.result.index) ∧
    (∀ s : State, s.outValid = true ↔ ∃ b, s.outOffer = some b) ∧
    (∀ s : State, s.phase = .idle → (∀ a : BitVec 15, a.toNat < Config.tapeLen →
        s.obsCell a = some (tapeGet s.tape a.toNat)) ∧
      (∃ p, s.obsPtr = some p ∧ p.toNat = s.ptr.val) ∧ s.obsPc = some s.pc) ∧
    ∀ s : State, s.phase ≠ .idle → (∀ a, s.obsCell a = none) ∧ s.obsPtr = none ∧ s.obsPc = none
end

