-- ==== Sys2Proof/Laws/Memory.lean ====
section
/-! SUPPORT. The laws of the finite maps and of the tape: a read after a write, a write leaves every other key alone, every
write keeps the canonical form. -/

namespace Sys2Proof.Machine

variable {α : Type}

@[simp] theorem mapGet_nil (a : Nat) : mapGet ([] : List (Nat × α)) a = none := rfl

theorem mapGet_mapInsert (m : List (Nat × α)) (a b : Nat) (v : α) :
    mapGet (mapInsert m a v) b = if b = a then some v else mapGet m b := by
  induction m with
  | nil => simp [mapInsert, mapGet]
  | cons e m ih =>
    obtain ⟨k, w⟩ := e
    simp only [mapInsert]
    split
    · simp [mapGet]
    · split
      · subst_vars
        by_cases hb : b = k <;> simp [mapGet, hb]
      · by_cases hb : b = k
        · subst hb
          have : ¬ b = a := fun h => by simp_all
          simp [mapGet, this]
        · simp [mapGet, hb, ih]

theorem mapGet_mapErase (m : List (Nat × α)) (a b : Nat) :
    mapGet (mapErase m a) b = if b = a then none else mapGet m b := by
  induction m with
  | nil => simp [mapErase]
  | cons e m ih =>
    obtain ⟨k, w⟩ := e
    simp only [mapErase]
    split
    · subst_vars
      rw [ih]
      by_cases hb : b = k <;> simp [mapGet, hb]
    · by_cases hb : b = k
      · subst hb
        have : ¬ b = a := fun h => by simp_all
        simp [mapGet, this]
      · simp [mapGet, hb, ih]

/-- Every key listed is above `lo`, and keys rise strictly: the recursive form of `mapSorted`. -/
theorem mapSorted_cons (k : Nat) (v : α) (m : List (Nat × α)) :
    mapSorted ((k, v) :: m) = true ↔ (∀ c ∈ m, k < c.1) ∧ mapSorted m = true := by
  induction m generalizing k v with
  | nil => simp [mapSorted]
  | cons e m ih =>
    obtain ⟨l, w⟩ := e
    simp only [mapSorted, Bool.and_eq_true, decide_eq_true_eq, List.mem_cons, forall_eq_or_imp]
    refine ⟨fun ⟨h, hs⟩ => ⟨⟨h, fun c hc => h.trans ((ih l w).1 hs |>.1 c hc)⟩, hs⟩, fun ⟨⟨h, _⟩, hs⟩ => ⟨h, hs⟩⟩

theorem mem_mapInsert {m : List (Nat × α)} {a : Nat} {v : α} {c : Nat × α} (h : c ∈ mapInsert m a v) :
    c = (a, v) ∨ c ∈ m := by
  induction m with
  | nil => simpa [mapInsert] using h
  | cons e m ih =>
    obtain ⟨k, w⟩ := e
    simp only [mapInsert] at h
    split at h
    · simpa using h
    · split at h
      · rcases List.mem_cons.1 h with h | h
        · exact .inl h
        · exact .inr (List.mem_cons_of_mem _ h)
      · rcases List.mem_cons.1 h with h | h
        · exact .inr (by simp [h])
        · exact (ih h).imp_right (List.mem_cons_of_mem _)

theorem mem_mapErase {m : List (Nat × α)} {a : Nat} {c : Nat × α} (h : c ∈ mapErase m a) : c ∈ m := by
  induction m with
  | nil => simp [mapErase] at h
  | cons e m ih =>
    obtain ⟨k, w⟩ := e
    simp only [mapErase] at h
    split at h
    · exact List.mem_cons_of_mem _ (ih h)
    · rcases List.mem_cons.1 h with h | h
      · simp [h]
      · exact List.mem_cons_of_mem _ (ih h)

theorem mapSorted_mapInsert {m : List (Nat × α)} (a : Nat) (v : α) (h : mapSorted m = true) :
    mapSorted (mapInsert m a v) = true := by
  induction m with
  | nil => simp [mapInsert, mapSorted]
  | cons e m ih =>
    obtain ⟨k, w⟩ := e
    obtain ⟨hk, hm⟩ := (mapSorted_cons k w m).1 h
    simp only [mapInsert]
    split
    · next hlt =>
      refine (mapSorted_cons _ _ _).2 ⟨fun c hc => ?_, h⟩
      rcases List.mem_cons.1 hc with rfl | hc
      · exact hlt
      · exact hlt.trans (hk c hc)
    · split
      · next heq => exact (mapSorted_cons _ _ _).2 ⟨fun c hc => heq ▸ hk c hc, hm⟩
      · next hlt hne =>
        refine (mapSorted_cons _ _ _).2 ⟨fun c hc => ?_, ih hm⟩
        rcases mem_mapInsert hc with rfl | hc
        · exact Nat.lt_of_le_of_ne (Nat.le_of_not_lt hlt) (Ne.symm hne)
        · exact hk c hc

theorem mapSorted_mapErase {m : List (Nat × α)} (a : Nat) (h : mapSorted m = true) :
    mapSorted (mapErase m a) = true := by
  induction m with
  | nil => simp [mapErase, mapSorted]
  | cons e m ih =>
    obtain ⟨k, w⟩ := e
    obtain ⟨hk, hm⟩ := (mapSorted_cons k w m).1 h
    simp only [mapErase]
    split
    · exact ih hm
    · exact (mapSorted_cons _ _ _).2 ⟨fun c hc => hk c (mem_mapErase hc), ih hm⟩

/-- A listed pair is what a read of its key gives, in a map in canonical form. -/
theorem mapGet_of_mem {m : List (Nat × α)} {k : Nat} {v : α} (h : mapSorted m = true) (hm : (k, v) ∈ m) :
    mapGet m k = some v := by
  induction m with
  | nil => simp at hm
  | cons e m ih =>
    obtain ⟨l, w⟩ := e
    obtain ⟨hl, hs⟩ := (mapSorted_cons l w m).1 h
    rcases List.mem_cons.1 hm with heq | hm
    · cases heq
      simp [mapGet]
    · have : ¬ k = l := fun he => Nat.lt_irrefl _ (he ▸ hl _ hm)
      simp [mapGet, this, ih hs hm]

theorem mem_of_mapGet {m : List (Nat × α)} {k : Nat} {v : α} (h : mapGet m k = some v) : (k, v) ∈ m := by
  induction m with
  | nil => simp at h
  | cons e m ih =>
    obtain ⟨l, w⟩ := e
    simp only [mapGet] at h
    split at h
    · simp_all
    · exact List.mem_cons_of_mem _ (ih h)

/-! ### The tape -/

@[simp] theorem tapeGet_nil (a : Nat) : tapeGet [] a = 0#8 := rfl

/-- A tape write changes what its own index reads, and no other (R57). -/
theorem tapeGet_tapeSet (m : List Host.Cell) (a b : Nat) (v : Byte) :
    tapeGet (tapeSet m a v) b = if b = a then v else tapeGet m b := by
  unfold tapeGet tapeSet
  split
  · next hv => rw [mapGet_mapErase]; split <;> simp [hv]
  · rw [mapGet_mapInsert]; split <;> simp

theorem Memory.wf_iff (m : List Host.Cell) :
    Memory.wf m = true ↔ mapSorted m = true ∧ ∀ c ∈ m, c.1 < Config.tapeLen ∧ c.2 ≠ 0#8 := by
  simp [Memory.wf, List.all_eq_true]

/-- A write at an index of the tape keeps the canonical form. -/
theorem Memory.wf_tapeSet {m : List Host.Cell} {a : Nat} (v : Byte) (ha : a < Config.tapeLen) (h : Memory.wf m = true) :
    Memory.wf (tapeSet m a v) = true := by
  obtain ⟨hs, hm⟩ := (Memory.wf_iff m).1 h
  refine (Memory.wf_iff _).2 ?_
  unfold tapeSet
  split
  · exact ⟨mapSorted_mapErase a hs, fun c hc => hm c (mem_mapErase hc)⟩
  · next hv =>
    refine ⟨mapSorted_mapInsert a v hs, fun c hc => ?_⟩
    rcases mem_mapInsert hc with rfl | hc
    · exact ⟨ha, hv⟩
    · exact hm c hc

theorem Memory.wf_nil : Memory.wf [] = true := rfl

end Sys2Proof.Machine
end

