-- ==== Sys2Proof/Laws/State.lean ====
section
/-! SUPPORT. One lemma per field for each update of the state, true by rfl, so that no proof unfolds a record update. -/

namespace Sys2Proof.Machine

/-! ### setCell -/

@[simp] theorem State.setCell_tape (s : State) (v : Byte) : (s.setCell v).tape = tapeSet s.tape s.ptr.val v := rfl
@[simp] theorem State.setCell_ptr (s : State) (v : Byte) : (s.setCell v).ptr = s.ptr := rfl
@[simp] theorem State.setCell_pc (s : State) (v : Byte) : (s.setCell v).pc = s.pc := rfl
@[simp] theorem State.setCell_jt (s : State) (v : Byte) : (s.setCell v).jt = s.jt := rfl
@[simp] theorem State.setCell_prog (s : State) (v : Byte) : (s.setCell v).prog = s.prog := rfl
@[simp] theorem State.setCell_progLen (s : State) (v : Byte) : (s.setCell v).progLen = s.progLen := rfl
@[simp] theorem State.setCell_phase (s : State) (v : Byte) : (s.setCell v).phase = s.phase := rfl
@[simp] theorem State.setCell_result (s : State) (v : Byte) : (s.setCell v).result = s.result := rfl
@[simp] theorem State.setCell_done (s : State) (v : Byte) : (s.setCell v).done = s.done := rfl
@[simp] theorem State.setCell_stk (s : State) (v : Byte) : (s.setCell v).stk = s.stk := rfl
@[simp] theorem State.setCell_scan (s : State) (v : Byte) : (s.setCell v).scan = s.scan := rfl
@[simp] theorem State.setCell_inReq (s : State) (v : Byte) : (s.setCell v).inReq = s.inReq := rfl
@[simp] theorem State.setCell_outOffer (s : State) (v : Byte) : (s.setCell v).outOffer = s.outOffer := rfl
@[simp] theorem State.setCell_progMax (s : State) (v : Byte) : (s.setCell v).progMax = s.progMax := rfl
@[simp] theorem State.setCell_moves (s : State) (v : Byte) : (s.setCell v).moves = s.moves := rfl
@[simp] theorem State.setCell_input (s : State) (v : Byte) : (s.setCell v).input = s.input := rfl
@[simp] theorem State.setCell_accept (s : State) (v : Byte) : (s.setCell v).accept = s.accept := rfl
@[simp] theorem State.setCell_log (s : State) (v : Byte) : (s.setCell v).log = s.log := rfl

/-! ### record -/

@[simp] theorem State.record_tape (s : State) (es : List Event) : (s.record es).tape = s.tape := rfl
@[simp] theorem State.record_ptr (s : State) (es : List Event) : (s.record es).ptr = s.ptr := rfl
@[simp] theorem State.record_pc (s : State) (es : List Event) : (s.record es).pc = s.pc := rfl
@[simp] theorem State.record_jt (s : State) (es : List Event) : (s.record es).jt = s.jt := rfl
@[simp] theorem State.record_prog (s : State) (es : List Event) : (s.record es).prog = s.prog := rfl
@[simp] theorem State.record_progLen (s : State) (es : List Event) : (s.record es).progLen = s.progLen := rfl
@[simp] theorem State.record_phase (s : State) (es : List Event) : (s.record es).phase = s.phase := rfl
@[simp] theorem State.record_result (s : State) (es : List Event) : (s.record es).result = s.result := rfl
@[simp] theorem State.record_done (s : State) (es : List Event) : (s.record es).done = s.done := rfl
@[simp] theorem State.record_stk (s : State) (es : List Event) : (s.record es).stk = s.stk := rfl
@[simp] theorem State.record_scan (s : State) (es : List Event) : (s.record es).scan = s.scan := rfl
@[simp] theorem State.record_inReq (s : State) (es : List Event) : (s.record es).inReq = s.inReq := rfl
@[simp] theorem State.record_outOffer (s : State) (es : List Event) : (s.record es).outOffer = s.outOffer := rfl
@[simp] theorem State.record_progMax (s : State) (es : List Event) : (s.record es).progMax = s.progMax := rfl
@[simp] theorem State.record_moves (s : State) (es : List Event) : (s.record es).moves = s.moves := rfl
@[simp] theorem State.record_input (s : State) (es : List Event) : (s.record es).input = s.input := rfl
@[simp] theorem State.record_accept (s : State) (es : List Event) : (s.record es).accept = s.accept := rfl
@[simp] theorem State.record_log (s : State) (es : List Event) : (s.record es).log = s.log ++ es := rfl

/-! ### requestInput -/

@[simp] theorem State.requestInput_tape (s : State) : s.requestInput.tape = s.tape := rfl
@[simp] theorem State.requestInput_ptr (s : State) : s.requestInput.ptr = s.ptr := rfl
@[simp] theorem State.requestInput_pc (s : State) : s.requestInput.pc = s.pc := rfl
@[simp] theorem State.requestInput_jt (s : State) : s.requestInput.jt = s.jt := rfl
@[simp] theorem State.requestInput_prog (s : State) : s.requestInput.prog = s.prog := rfl
@[simp] theorem State.requestInput_progLen (s : State) : s.requestInput.progLen = s.progLen := rfl
@[simp] theorem State.requestInput_phase (s : State) : s.requestInput.phase = s.phase := rfl
@[simp] theorem State.requestInput_result (s : State) : s.requestInput.result = s.result := rfl
@[simp] theorem State.requestInput_done (s : State) : s.requestInput.done = s.done := rfl
@[simp] theorem State.requestInput_stk (s : State) : s.requestInput.stk = s.stk := rfl
@[simp] theorem State.requestInput_scan (s : State) : s.requestInput.scan = s.scan := rfl
@[simp] theorem State.requestInput_inReq (s : State) : s.requestInput.inReq = true := rfl
@[simp] theorem State.requestInput_outOffer (s : State) : s.requestInput.outOffer = s.outOffer := rfl
@[simp] theorem State.requestInput_progMax (s : State) : s.requestInput.progMax = s.progMax := rfl
@[simp] theorem State.requestInput_moves (s : State) : s.requestInput.moves = s.moves := rfl
@[simp] theorem State.requestInput_input (s : State) : s.requestInput.input = s.input := rfl
@[simp] theorem State.requestInput_accept (s : State) : s.requestInput.accept = s.accept := rfl
@[simp] theorem State.requestInput_log (s : State) : s.requestInput.log = s.log ++ (if s.inReq then [] else [.inRequest]) := rfl

/-! ### offerUnit -/

@[simp] theorem State.offerUnit_tape (s : State) (v : Byte) : (s.offerUnit v).tape = s.tape := rfl
@[simp] theorem State.offerUnit_ptr (s : State) (v : Byte) : (s.offerUnit v).ptr = s.ptr := rfl
@[simp] theorem State.offerUnit_pc (s : State) (v : Byte) : (s.offerUnit v).pc = s.pc := rfl
@[simp] theorem State.offerUnit_jt (s : State) (v : Byte) : (s.offerUnit v).jt = s.jt := rfl
@[simp] theorem State.offerUnit_prog (s : State) (v : Byte) : (s.offerUnit v).prog = s.prog := rfl
@[simp] theorem State.offerUnit_progLen (s : State) (v : Byte) : (s.offerUnit v).progLen = s.progLen := rfl
@[simp] theorem State.offerUnit_phase (s : State) (v : Byte) : (s.offerUnit v).phase = s.phase := rfl
@[simp] theorem State.offerUnit_result (s : State) (v : Byte) : (s.offerUnit v).result = s.result := rfl
@[simp] theorem State.offerUnit_done (s : State) (v : Byte) : (s.offerUnit v).done = s.done := rfl
@[simp] theorem State.offerUnit_stk (s : State) (v : Byte) : (s.offerUnit v).stk = s.stk := rfl
@[simp] theorem State.offerUnit_scan (s : State) (v : Byte) : (s.offerUnit v).scan = s.scan := rfl
@[simp] theorem State.offerUnit_inReq (s : State) (v : Byte) : (s.offerUnit v).inReq = s.inReq := rfl
@[simp] theorem State.offerUnit_outOffer (s : State) (v : Byte) : (s.offerUnit v).outOffer = some v := rfl
@[simp] theorem State.offerUnit_progMax (s : State) (v : Byte) : (s.offerUnit v).progMax = s.progMax := rfl
@[simp] theorem State.offerUnit_moves (s : State) (v : Byte) : (s.offerUnit v).moves = s.moves := rfl
@[simp] theorem State.offerUnit_input (s : State) (v : Byte) : (s.offerUnit v).input = s.input := rfl
@[simp] theorem State.offerUnit_accept (s : State) (v : Byte) : (s.offerUnit v).accept = s.accept := rfl
@[simp] theorem State.offerUnit_log (s : State) (v : Byte) : (s.offerUnit v).log = s.log ++ (if s.outOffer.isSome then [] else [.outUnit v]) := rfl

/-! ### advance -/

@[simp] theorem State.advance_tape (s : State) : s.advance.tape = s.tape := rfl
@[simp] theorem State.advance_ptr (s : State) : s.advance.ptr = s.ptr := rfl
@[simp] theorem State.advance_pc (s : State) : s.advance.pc = s.pc + 1 := rfl
@[simp] theorem State.advance_jt (s : State) : s.advance.jt = s.jt := rfl
@[simp] theorem State.advance_prog (s : State) : s.advance.prog = s.prog := rfl
@[simp] theorem State.advance_progLen (s : State) : s.advance.progLen = s.progLen := rfl
@[simp] theorem State.advance_phase (s : State) : s.advance.phase = s.phase := rfl
@[simp] theorem State.advance_result (s : State) : s.advance.result = s.result := rfl
@[simp] theorem State.advance_done (s : State) : s.advance.done = s.done := rfl
@[simp] theorem State.advance_stk (s : State) : s.advance.stk = s.stk := rfl
@[simp] theorem State.advance_scan (s : State) : s.advance.scan = s.scan := rfl
@[simp] theorem State.advance_inReq (s : State) : s.advance.inReq = s.inReq := rfl
@[simp] theorem State.advance_outOffer (s : State) : s.advance.outOffer = s.outOffer := rfl
@[simp] theorem State.advance_progMax (s : State) : s.advance.progMax = s.progMax := rfl
@[simp] theorem State.advance_moves (s : State) : s.advance.moves = s.moves := rfl
@[simp] theorem State.advance_input (s : State) : s.advance.input = s.input := rfl
@[simp] theorem State.advance_accept (s : State) : s.advance.accept = s.accept := rfl
@[simp] theorem State.advance_log (s : State) : s.advance.log = s.log := rfl

/-! ### complete -/

@[simp] theorem State.complete_tape (s : State) (r : Report) : (s.complete r).tape = s.tape := rfl
@[simp] theorem State.complete_ptr (s : State) (r : Report) : (s.complete r).ptr = s.ptr := rfl
@[simp] theorem State.complete_pc (s : State) (r : Report) : (s.complete r).pc = s.pc := rfl
@[simp] theorem State.complete_jt (s : State) (r : Report) : (s.complete r).jt = s.jt := rfl
@[simp] theorem State.complete_prog (s : State) (r : Report) : (s.complete r).prog = s.prog := rfl
@[simp] theorem State.complete_progLen (s : State) (r : Report) : (s.complete r).progLen = s.progLen := rfl
@[simp] theorem State.complete_phase (s : State) (r : Report) : (s.complete r).phase = .idle := rfl
@[simp] theorem State.complete_result (s : State) (r : Report) : (s.complete r).result = r := rfl
@[simp] theorem State.complete_done (s : State) (r : Report) : (s.complete r).done = true := rfl
@[simp] theorem State.complete_stk (s : State) (r : Report) : (s.complete r).stk = s.stk := rfl
@[simp] theorem State.complete_scan (s : State) (r : Report) : (s.complete r).scan = s.scan := rfl
@[simp] theorem State.complete_inReq (s : State) (r : Report) : (s.complete r).inReq = s.inReq := rfl
@[simp] theorem State.complete_outOffer (s : State) (r : Report) : (s.complete r).outOffer = s.outOffer := rfl
@[simp] theorem State.complete_progMax (s : State) (r : Report) : (s.complete r).progMax = s.progMax := rfl
@[simp] theorem State.complete_moves (s : State) (r : Report) : (s.complete r).moves = s.moves := rfl
@[simp] theorem State.complete_input (s : State) (r : Report) : (s.complete r).input = s.input := rfl
@[simp] theorem State.complete_accept (s : State) (r : Report) : (s.complete r).accept = s.accept := rfl
@[simp] theorem State.complete_log (s : State) (r : Report) : (s.complete r).log = s.log ++ [.completed r] := rfl

/-! ### raise -/

@[simp] theorem State.raise_tape (s : State) (e : StructuralError) : (s.raise e).tape = s.tape := rfl
@[simp] theorem State.raise_ptr (s : State) (e : StructuralError) : (s.raise e).ptr = s.ptr := rfl
@[simp] theorem State.raise_pc (s : State) (e : StructuralError) : (s.raise e).pc = 0 := rfl
@[simp] theorem State.raise_jt (s : State) (e : StructuralError) : (s.raise e).jt = [] := rfl
@[simp] theorem State.raise_prog (s : State) (e : StructuralError) : (s.raise e).prog = s.prog := rfl
@[simp] theorem State.raise_progLen (s : State) (e : StructuralError) : (s.raise e).progLen = s.progLen := rfl
@[simp] theorem State.raise_phase (s : State) (e : StructuralError) : (s.raise e).phase = .idle := rfl
@[simp] theorem State.raise_result (s : State) (e : StructuralError) : (s.raise e).result = e.report := rfl
@[simp] theorem State.raise_done (s : State) (e : StructuralError) : (s.raise e).done = true := rfl
@[simp] theorem State.raise_stk (s : State) (e : StructuralError) : (s.raise e).stk = [] := rfl
@[simp] theorem State.raise_scan (s : State) (e : StructuralError) : (s.raise e).scan = 0 := rfl
@[simp] theorem State.raise_inReq (s : State) (e : StructuralError) : (s.raise e).inReq = s.inReq := rfl
@[simp] theorem State.raise_outOffer (s : State) (e : StructuralError) : (s.raise e).outOffer = s.outOffer := rfl
@[simp] theorem State.raise_progMax (s : State) (e : StructuralError) : (s.raise e).progMax = s.progMax := rfl
@[simp] theorem State.raise_moves (s : State) (e : StructuralError) : (s.raise e).moves = s.moves := rfl
@[simp] theorem State.raise_input (s : State) (e : StructuralError) : (s.raise e).input = s.input := rfl
@[simp] theorem State.raise_accept (s : State) (e : StructuralError) : (s.raise e).accept = s.accept := rfl
@[simp] theorem State.raise_log (s : State) (e : StructuralError) : (s.raise e).log = s.log ++ [.completed e.report] := rfl

/-! ### endRun -/

@[simp] theorem State.endRun_tape (s : State) : s.endRun.tape = s.tape := rfl
@[simp] theorem State.endRun_ptr (s : State) : s.endRun.ptr = s.ptr := rfl
@[simp] theorem State.endRun_pc (s : State) : s.endRun.pc = s.pc := rfl
@[simp] theorem State.endRun_jt (s : State) : s.endRun.jt = s.jt := rfl
@[simp] theorem State.endRun_prog (s : State) : s.endRun.prog = s.prog := rfl
@[simp] theorem State.endRun_progLen (s : State) : s.endRun.progLen = s.progLen := rfl
@[simp] theorem State.endRun_phase (s : State) : s.endRun.phase = .idle := rfl
@[simp] theorem State.endRun_result (s : State) : s.endRun.result = ⟨.ok, 0⟩ := rfl
@[simp] theorem State.endRun_done (s : State) : s.endRun.done = true := rfl
@[simp] theorem State.endRun_stk (s : State) : s.endRun.stk = s.stk := rfl
@[simp] theorem State.endRun_scan (s : State) : s.endRun.scan = s.scan := rfl
@[simp] theorem State.endRun_inReq (s : State) : s.endRun.inReq = s.inReq := rfl
@[simp] theorem State.endRun_outOffer (s : State) : s.endRun.outOffer = s.outOffer := rfl
@[simp] theorem State.endRun_progMax (s : State) : s.endRun.progMax = s.progMax := rfl
@[simp] theorem State.endRun_moves (s : State) : s.endRun.moves = s.moves := rfl
@[simp] theorem State.endRun_input (s : State) : s.endRun.input = s.input := rfl
@[simp] theorem State.endRun_accept (s : State) : s.endRun.accept = s.accept := rfl
@[simp] theorem State.endRun_log (s : State) : s.endRun.log = s.log ++ [.completed ⟨.ok, 0⟩] := rfl

/-! ### resetCommand -/

@[simp] theorem State.resetCommand_tape (s : State) : s.resetCommand.tape = [] := rfl
@[simp] theorem State.resetCommand_ptr (s : State) : s.resetCommand.ptr = ⟨0, Config.tapeLen_pos⟩ := rfl
@[simp] theorem State.resetCommand_pc (s : State) : s.resetCommand.pc = 0 := rfl
@[simp] theorem State.resetCommand_jt (s : State) : s.resetCommand.jt = [] := rfl
@[simp] theorem State.resetCommand_prog (s : State) : s.resetCommand.prog = s.prog := rfl
@[simp] theorem State.resetCommand_progLen (s : State) : s.resetCommand.progLen = s.progLen := rfl
@[simp] theorem State.resetCommand_phase (s : State) : s.resetCommand.phase = s.phase := rfl
@[simp] theorem State.resetCommand_result (s : State) : s.resetCommand.result = ⟨.ok, 0⟩ := rfl
@[simp] theorem State.resetCommand_done (s : State) : s.resetCommand.done = true := rfl
@[simp] theorem State.resetCommand_stk (s : State) : s.resetCommand.stk = [] := rfl
@[simp] theorem State.resetCommand_scan (s : State) : s.resetCommand.scan = 0 := rfl
@[simp] theorem State.resetCommand_inReq (s : State) : s.resetCommand.inReq = s.inReq := rfl
@[simp] theorem State.resetCommand_outOffer (s : State) : s.resetCommand.outOffer = s.outOffer := rfl
@[simp] theorem State.resetCommand_progMax (s : State) : s.resetCommand.progMax = s.progMax := rfl
@[simp] theorem State.resetCommand_moves (s : State) : s.resetCommand.moves = s.moves := rfl
@[simp] theorem State.resetCommand_input (s : State) : s.resetCommand.input = s.input := rfl
@[simp] theorem State.resetCommand_accept (s : State) : s.resetCommand.accept = s.accept := rfl
@[simp] theorem State.resetCommand_log (s : State) : s.resetCommand.log = s.log ++ [.reset, .resetDone] := rfl

/-! ### hardwareReset -/

@[simp] theorem State.hardwareReset_tape (s : State) (rest : Feed HostMove) : (s.hardwareReset rest).tape = [] := rfl
@[simp] theorem State.hardwareReset_ptr (s : State) (rest : Feed HostMove) : (s.hardwareReset rest).ptr = ⟨0, Config.tapeLen_pos⟩ := rfl
@[simp] theorem State.hardwareReset_pc (s : State) (rest : Feed HostMove) : (s.hardwareReset rest).pc = 0 := rfl
@[simp] theorem State.hardwareReset_jt (s : State) (rest : Feed HostMove) : (s.hardwareReset rest).jt = [] := rfl
@[simp] theorem State.hardwareReset_prog (s : State) (rest : Feed HostMove) : (s.hardwareReset rest).prog = [] := rfl
@[simp] theorem State.hardwareReset_progLen (s : State) (rest : Feed HostMove) : (s.hardwareReset rest).progLen = 0 := rfl
@[simp] theorem State.hardwareReset_phase (s : State) (rest : Feed HostMove) : (s.hardwareReset rest).phase = .idle := rfl
@[simp] theorem State.hardwareReset_result (s : State) (rest : Feed HostMove) : (s.hardwareReset rest).result = ⟨.ok, 0⟩ := rfl
@[simp] theorem State.hardwareReset_done (s : State) (rest : Feed HostMove) : (s.hardwareReset rest).done = false := rfl
@[simp] theorem State.hardwareReset_stk (s : State) (rest : Feed HostMove) : (s.hardwareReset rest).stk = [] := rfl
@[simp] theorem State.hardwareReset_scan (s : State) (rest : Feed HostMove) : (s.hardwareReset rest).scan = 0 := rfl
@[simp] theorem State.hardwareReset_inReq (s : State) (rest : Feed HostMove) : (s.hardwareReset rest).inReq = false := rfl
@[simp] theorem State.hardwareReset_outOffer (s : State) (rest : Feed HostMove) : (s.hardwareReset rest).outOffer = none := rfl
@[simp] theorem State.hardwareReset_progMax (s : State) (rest : Feed HostMove) : (s.hardwareReset rest).progMax = s.progMax := rfl
@[simp] theorem State.hardwareReset_moves (s : State) (rest : Feed HostMove) : (s.hardwareReset rest).moves = rest := rfl
@[simp] theorem State.hardwareReset_input (s : State) (rest : Feed HostMove) : (s.hardwareReset rest).input = s.input := rfl
@[simp] theorem State.hardwareReset_accept (s : State) (rest : Feed HostMove) : (s.hardwareReset rest).accept = s.accept := rfl
@[simp] theorem State.hardwareReset_log (s : State) (rest : Feed HostMove) : (s.hardwareReset rest).log = s.log ++ [.construct] := rfl

/-! ### tick -/

@[simp] theorem State.tick_tape (s : State) (rest : Feed HostMove) : (s.tick rest).tape = s.tape := rfl
@[simp] theorem State.tick_ptr (s : State) (rest : Feed HostMove) : (s.tick rest).ptr = s.ptr := rfl
@[simp] theorem State.tick_pc (s : State) (rest : Feed HostMove) : (s.tick rest).pc = s.pc := rfl
@[simp] theorem State.tick_jt (s : State) (rest : Feed HostMove) : (s.tick rest).jt = s.jt := rfl
@[simp] theorem State.tick_prog (s : State) (rest : Feed HostMove) : (s.tick rest).prog = s.prog := rfl
@[simp] theorem State.tick_progLen (s : State) (rest : Feed HostMove) : (s.tick rest).progLen = s.progLen := rfl
@[simp] theorem State.tick_phase (s : State) (rest : Feed HostMove) : (s.tick rest).phase = s.phase := rfl
@[simp] theorem State.tick_result (s : State) (rest : Feed HostMove) : (s.tick rest).result = s.result := rfl
@[simp] theorem State.tick_done (s : State) (rest : Feed HostMove) : (s.tick rest).done = false := rfl
@[simp] theorem State.tick_stk (s : State) (rest : Feed HostMove) : (s.tick rest).stk = s.stk := rfl
@[simp] theorem State.tick_scan (s : State) (rest : Feed HostMove) : (s.tick rest).scan = s.scan := rfl
@[simp] theorem State.tick_inReq (s : State) (rest : Feed HostMove) : (s.tick rest).inReq = s.inReq := rfl
@[simp] theorem State.tick_outOffer (s : State) (rest : Feed HostMove) : (s.tick rest).outOffer = s.outOffer := rfl
@[simp] theorem State.tick_progMax (s : State) (rest : Feed HostMove) : (s.tick rest).progMax = s.progMax := rfl
@[simp] theorem State.tick_moves (s : State) (rest : Feed HostMove) : (s.tick rest).moves = rest := rfl
@[simp] theorem State.tick_input (s : State) (rest : Feed HostMove) : (s.tick rest).input = s.input := rfl
@[simp] theorem State.tick_accept (s : State) (rest : Feed HostMove) : (s.tick rest).accept = s.accept := rfl
@[simp] theorem State.tick_log (s : State) (rest : Feed HostMove) : (s.tick rest).log = s.log := rfl

/-! ### startRun -/

@[simp] theorem State.startRun_tape (s : State) : s.startRun.tape = s.tape := rfl
@[simp] theorem State.startRun_ptr (s : State) : s.startRun.ptr = s.ptr := rfl
@[simp] theorem State.startRun_pc (s : State) : s.startRun.pc = s.pc := rfl
@[simp] theorem State.startRun_jt (s : State) : s.startRun.jt = s.jt := rfl
@[simp] theorem State.startRun_prog (s : State) : s.startRun.prog = s.prog := rfl
@[simp] theorem State.startRun_progLen (s : State) : s.startRun.progLen = s.progLen := rfl
@[simp] theorem State.startRun_phase (s : State) : s.startRun.phase = .run := rfl
@[simp] theorem State.startRun_result (s : State) : s.startRun.result = s.result := rfl
@[simp] theorem State.startRun_done (s : State) : s.startRun.done = s.done := rfl
@[simp] theorem State.startRun_stk (s : State) : s.startRun.stk = [] := rfl
@[simp] theorem State.startRun_scan (s : State) : s.startRun.scan = 0 := rfl
@[simp] theorem State.startRun_inReq (s : State) : s.startRun.inReq = s.inReq := rfl
@[simp] theorem State.startRun_outOffer (s : State) : s.startRun.outOffer = s.outOffer := rfl
@[simp] theorem State.startRun_progMax (s : State) : s.startRun.progMax = s.progMax := rfl
@[simp] theorem State.startRun_moves (s : State) : s.startRun.moves = s.moves := rfl
@[simp] theorem State.startRun_input (s : State) : s.startRun.input = s.input := rfl
@[simp] theorem State.startRun_accept (s : State) : s.startRun.accept = s.accept := rfl
@[simp] theorem State.startRun_log (s : State) : s.startRun.log = s.log := rfl

/-! ### What the host does, seen through an update that leaves its feed alone -/

@[simp] theorem State.setCell_hostAnswer (s : State) (v : Byte) : (s.setCell v).hostAnswer = s.hostAnswer := rfl
@[simp] theorem State.setCell_hostAccept (s : State) (v : Byte) : (s.setCell v).hostAccept = s.hostAccept := rfl
@[simp] theorem State.setCell_hostMove (s : State) (v : Byte) : (s.setCell v).hostMove = s.hostMove := rfl
@[simp] theorem State.record_hostAnswer (s : State) (es : List Event) : (s.record es).hostAnswer = s.hostAnswer := rfl
@[simp] theorem State.record_hostAccept (s : State) (es : List Event) : (s.record es).hostAccept = s.hostAccept := rfl
@[simp] theorem State.record_hostMove (s : State) (es : List Event) : (s.record es).hostMove = s.hostMove := rfl
@[simp] theorem State.requestInput_hostAnswer (s : State) : s.requestInput.hostAnswer = s.hostAnswer := rfl
@[simp] theorem State.requestInput_hostAccept (s : State) : s.requestInput.hostAccept = s.hostAccept := rfl
@[simp] theorem State.requestInput_hostMove (s : State) : s.requestInput.hostMove = s.hostMove := rfl
@[simp] theorem State.offerUnit_hostAnswer (s : State) (v : Byte) : (s.offerUnit v).hostAnswer = s.hostAnswer := rfl
@[simp] theorem State.offerUnit_hostAccept (s : State) (v : Byte) : (s.offerUnit v).hostAccept = s.hostAccept := rfl
@[simp] theorem State.offerUnit_hostMove (s : State) (v : Byte) : (s.offerUnit v).hostMove = s.hostMove := rfl
@[simp] theorem State.advance_hostAnswer (s : State) : s.advance.hostAnswer = s.hostAnswer := rfl
@[simp] theorem State.advance_hostAccept (s : State) : s.advance.hostAccept = s.hostAccept := rfl
@[simp] theorem State.advance_hostMove (s : State) : s.advance.hostMove = s.hostMove := rfl
@[simp] theorem State.tick_hostAnswer (s : State) (rest : Feed HostMove) : (s.tick rest).hostAnswer = s.hostAnswer := rfl
@[simp] theorem State.tick_hostAccept (s : State) (rest : Feed HostMove) : (s.tick rest).hostAccept = s.hostAccept := rfl

end Sys2Proof.Machine
end

