-- ==== Sys2Proof/Laws/Ops.lean ====
section
/-! SUPPORT. For each shared operation, one lemma that says everything it can do; then the same for each instruction, and
for `exec` as a whole. -/

namespace Sys2Proof.Machine

variable {s t : State}

/-! ### Cells and pointer moves -/

@[simp] theorem State.setCell_cell (s : State) (v : Byte) : (s.setCell v).cell = v := by
  simp [State.cell, State.setCell, tapeGet_tapeSet]

theorem cellInc_eq (v : Byte) : cellInc v = v + 1#8 := by
  revert v; decide

theorem cellDec_eq (v : Byte) : cellDec v = v - 1#8 := by
  revert v; decide

theorem ptrRight_val (p : Fin Config.tapeLen) : (ptrRight p).val = (p.val + 1) % Config.tapeLen := by
  have hp := p.isLt
  unfold ptrRight
  split
  · next h =>
    have : p.val + 1 = Config.tapeLen := by omega
    rw [this, Nat.mod_self]
  · next h => rw [Nat.mod_eq_of_lt (by omega)]

theorem ptrLeft_val (p : Fin Config.tapeLen) :
    (ptrLeft p).val = (p.val + (Config.tapeLen - 1)) % Config.tapeLen := by
  have hp := p.isLt
  unfold ptrLeft
  split
  · next h => simp [h, Nat.mod_eq_of_lt (Nat.sub_lt Config.tapeLen_pos Nat.one_pos)]
  · next h =>
    have : p.val + (Config.tapeLen - 1) = (p.val - 1) + Config.tapeLen := by omega
    rw [this, Nat.add_mod_right, Nat.mod_eq_of_lt (by omega)]

/-! ### The program -/

theorem State.progAt_congr (h : t.prog = s.prog) : t.progAt = s.progAt := by
  funext i; simp [State.progAt, h]

theorem State.source_congr (h : t.prog = s.prog) (hl : t.progLen = s.progLen) : t.source = s.source := by
  simp [State.source, State.progAt_congr h, hl]

@[simp] theorem State.source_length (s : State) : s.source.length = s.progLen := by simp [State.source]

/-- The source holds `PROG[i]` at each index below PROG_LEN. -/
theorem State.source_getElem? (s : State) {i : Nat} (h : i < s.progLen) : s.source[i]? = some (s.progAt i) := by
  simp [State.source, h]

/-- One more character scanned (R101). -/
theorem State.source_take_succ (s : State) {i : Nat} (h : i < s.progLen) :
    s.source.take (i + 1) = s.source.take i ++ [s.progAt i] := by
  rw [List.take_add_one, s.source_getElem? h]; rfl

/-! ### The event history -/

/-- The units and bytes of a history that grew by `es` are those of before and those of `es`. -/
theorem State.outHistory_grow {es : List Event} (h : t.log = s.log ++ es) :
    t.outHistory = s.outHistory ++ es.filterMap Event.delivered := by
  simp [State.outHistory, h]

theorem State.inPosition_grow {es : List Event} (h : t.log = s.log ++ es) :
    t.inPosition = s.inPosition + (es.filterMap Event.taken).length := by
  simp [State.inPosition, h]

theorem State.inRequests_grow {es : List Event} (h : t.log = s.log ++ es) :
    t.inRequests = s.inRequests + es.countP fun e => e == .inRequest := by
  simp [State.inRequests, h]

/-! ### The host's feeds -/

/-- The listed items come first. -/
@[simp] theorem feedNext_cons {α : Type} (draw : Nat → α) (a : α) (items : List α) (r : Rest α) :
    feedNext draw ⟨a :: items, r⟩ = (a, ⟨items, r⟩) := rfl

@[simp] theorem feedNext_always {α : Type} (draw : Nat → α) (a : α) :
    feedNext draw ⟨[], .always a⟩ = (a, ⟨[], .always a⟩) := rfl

@[simp] theorem feedNext_drawn {α : Type} (draw : Nat → α) (n : Nat) :
    feedNext draw ⟨[], .drawn n⟩ = (draw n, ⟨[], .drawn (n + 1)⟩) := rfl

@[simp] theorem feedNext_push {α : Type} (draw : Nat → α) (f : Feed α) (a : α) : feedNext draw (f.push a) = (a, f) := rfl

@[simp] theorem feedNext_noMoves : feedNext Config.hostMove noMoves = (.pause, noMoves) := rfl

/-- The events with which a `.` offers its unit: none if it stands already. -/
def offerEvents (s : State) : List Event := if s.outOffer.isSome then [] else [.outUnit s.cell]

/-- The events with which a `,` asks: none if the request stands already. -/
def requestEvents (s : State) : List Event := if s.inReq then [] else [.inRequest]

@[simp] theorem offerEvents_delivered (s : State) : (offerEvents s).filterMap Event.delivered = [] := by
  unfold offerEvents; split <;> rfl

@[simp] theorem offerEvents_taken (s : State) : (offerEvents s).filterMap Event.taken = [] := by
  unfold offerEvents; split <;> rfl

@[simp] theorem requestEvents_delivered (s : State) : (requestEvents s).filterMap Event.delivered = [] := by
  unfold requestEvents; split <;> rfl

@[simp] theorem requestEvents_taken (s : State) : (requestEvents s).filterMap Event.taken = [] := by
  unfold requestEvents; split <;> rfl

/-! ### The instructions -/

/-- `.` when the host takes the unit. -/
theorem exec_out_delivers (h : s.hostAccept.1 = true) :
    exec .out s = .next { s with
      accept := s.hostAccept.2, outOffer := none, log := s.log ++ offerEvents s ++ [.outAccept s.cell] } := by
  simp only [exec, execOut, State.outPut, State.offerUnit_hostAccept]
  generalize s.hostAccept = r at h ⊢
  obtain ⟨_ | _, f⟩ := r
  · cases h
  · rfl

/-- `.` when the host does not take the unit yet. -/
theorem exec_out_waits (h : s.hostAccept.1 = false) :
    exec .out s = .next { s with
      accept := s.hostAccept.2, outOffer := some s.cell, log := s.log ++ offerEvents s } := by
  simp only [exec, execOut, State.outPut, State.offerUnit_hostAccept]
  generalize s.hostAccept = r at h ⊢
  obtain ⟨_ | _, f⟩ := r
  · rfl
  · cases h

/-- `,` when the host answers. -/
theorem exec_inp_answered {a : InAnswer} (h : s.hostAnswer.1 = some a) :
    exec .inp s = .next { s with
      tape := tapeSet s.tape s.ptr.val a.cellValue, input := s.hostAnswer.2, inReq := false,
      log := s.log ++ requestEvents s ++ [.inAnswer a] } := by
  simp only [exec, execInp, State.takeInput, State.inNext, State.requestInput_hostAnswer]
  generalize s.hostAnswer = r at h ⊢
  obtain ⟨_ | a', f⟩ := r <;> cases h
  rfl

/-- `,` when the host does not answer yet. -/
theorem exec_inp_waits (h : s.hostAnswer.1 = none) :
    exec .inp s = .next { s with
      input := s.hostAnswer.2, inReq := true, log := s.log ++ requestEvents s } := by
  simp only [exec, execInp, State.takeInput, State.inNext, State.requestInput_hostAnswer]
  generalize s.hostAnswer = r at h ⊢
  obtain ⟨_ | a', f⟩ := r <;> cases h
  rfl

/-- `]` on a zero cell. -/
theorem exec_loopClose_falls (h : s.cell = 0#8) : exec .loopClose s = .next s := by
  simp [exec, execLoopClose, State.closeTaken, h]

/-- `]` on a cell that is not zero (R171). -/
theorem exec_loopClose_jumps {o : Nat} (h : s.cell ≠ 0#8) (hj : mapGet s.jt s.pc = some o) :
    exec .loopClose s = .next { s with pc := o } := by
  simp [exec, execLoopClose, State.closeTaken, h, State.jumpTarget, hj]

/-- `]` with no entry (U23). -/
theorem exec_loopClose_misses (h : s.cell ≠ 0#8) (hj : mapGet s.jt s.pc = none) :
    exec .loopClose s = .fault .noJumpEntry := by
  simp [exec, execLoopClose, State.closeTaken, h, State.jumpTarget, hj]

/-- Everything an instruction can do that answers a next state: the inversion of `exec`. -/
theorem exec_cases {i : Instr} (h : exec i s = .next t) :
    (i = .right ∧ t = { s with ptr := ptrRight s.ptr }) ∨
    (i = .left ∧ t = { s with ptr := ptrLeft s.ptr }) ∨
    (i = .inc ∧ t = s.setCell (cellInc s.cell)) ∨
    (i = .dec ∧ t = s.setCell (cellDec s.cell)) ∨
    (i = .out ∧ s.hostAccept.1 = true ∧ t = { s with
      accept := s.hostAccept.2, outOffer := none, log := s.log ++ offerEvents s ++ [.outAccept s.cell] }) ∨
    (i = .out ∧ s.hostAccept.1 = false ∧ t = { s with
      accept := s.hostAccept.2, outOffer := some s.cell, log := s.log ++ offerEvents s }) ∨
    (i = .inp ∧ ∃ a, s.hostAnswer.1 = some a ∧ t = { s with
      tape := tapeSet s.tape s.ptr.val a.cellValue, input := s.hostAnswer.2, inReq := false,
      log := s.log ++ requestEvents s ++ [.inAnswer a] }) ∨
    (i = .inp ∧ s.hostAnswer.1 = none ∧ t = { s with
      input := s.hostAnswer.2, inReq := true, log := s.log ++ requestEvents s }) ∨
    (i = .loopClose ∧ s.cell ≠ 0#8 ∧ ∃ o, mapGet s.jt s.pc = some o ∧ t = { s with pc := o }) ∨
    ((i = .loopOpen ∨ (i = .loopClose ∧ s.cell = 0#8) ∨ ∃ c, i = .nop c) ∧ t = s) := by
  cases i with
  | right => cases h; exact .inl ⟨rfl, rfl⟩
  | left => cases h; exact .inr (.inl ⟨rfl, rfl⟩)
  | inc => cases h; exact .inr (.inr (.inl ⟨rfl, rfl⟩))
  | dec => cases h; exact .inr (.inr (.inr (.inl ⟨rfl, rfl⟩)))
  | out =>
    cases ha : s.hostAccept.1 with
    | true => rw [exec_out_delivers ha] at h; cases h; simp
    | false => rw [exec_out_waits ha] at h; cases h; simp
  | inp =>
    cases ha : s.hostAnswer.1 with
    | some a => rw [exec_inp_answered ha] at h; cases h; simp
    | none => rw [exec_inp_waits ha] at h; cases h; simp
  | loopOpen => cases h; simp
  | loopClose =>
    by_cases hc : s.cell = 0#8
    · rw [exec_loopClose_falls hc] at h; cases h; simp [hc]
    · cases hj : mapGet s.jt s.pc with
      | some o => rw [exec_loopClose_jumps hc hj] at h; cases h; simp [hc]
      | none => rw [exec_loopClose_misses hc hj] at h; cases h
  | nop c => cases h; simp

/-- Without an entry missing at a `]`, every instruction answers a next state (R130); the stop is U23's. -/
theorem exec_next_or_misses (i : Instr) (s : State) :
    (∃ u, exec i s = .next u) ∨
      (i = .loopClose ∧ s.cell ≠ 0#8 ∧ mapGet s.jt s.pc = none ∧ exec i s = .fault .noJumpEntry) := by
  cases i with
  | right => exact .inl ⟨_, rfl⟩
  | left => exact .inl ⟨_, rfl⟩
  | inc => exact .inl ⟨_, rfl⟩
  | dec => exact .inl ⟨_, rfl⟩
  | out =>
    cases ha : s.hostAccept.1 with
    | true => exact .inl ⟨_, exec_out_delivers ha⟩
    | false => exact .inl ⟨_, exec_out_waits ha⟩
  | inp =>
    cases ha : s.hostAnswer.1 with
    | some a => exact .inl ⟨_, exec_inp_answered ha⟩
    | none => exact .inl ⟨_, exec_inp_waits ha⟩
  | loopOpen => exact .inl ⟨_, rfl⟩
  | loopClose =>
    by_cases hc : s.cell = 0#8
    · exact .inl ⟨_, exec_loopClose_falls hc⟩
    · cases hj : mapGet s.jt s.pc with
      | some o => exact .inl ⟨_, exec_loopClose_jumps hc hj⟩
      | none => exact .inr ⟨rfl, hc, rfl, exec_loopClose_misses hc hj⟩
  | nop c => exact .inl ⟨_, rfl⟩

end Sys2Proof.Machine
end

