-- ==== Sys2Proof/Laws/PerInstr.lean ====
section
/-! SUPPORT. One family of statements made per instruction: its character decodes to it, and nothing of the rest of the source
is touched (R80 to R82, R85). -/

/-- The decoder reads an instruction back from its own character, whatever follows. -/
def Sys2Proof.Laws.EncodingAgrees.Statement (i : Sys2Proof.Instr) : Prop :=
  i.wellFormed = true → ∀ rest, Sys2Proof.decode (Sys2Proof.encode i :: rest) = .ok (i, rest)

namespace Sys2Proof.Laws.EncodingAgrees

theorem right : Statement .right := fun _ _ => rfl
theorem left : Statement .left := fun _ _ => rfl
theorem inc : Statement .inc := fun _ _ => rfl
theorem dec : Statement .dec := fun _ _ => rfl
theorem out : Statement .out := fun _ _ => rfl
theorem inp : Statement .inp := fun _ _ => rfl
theorem loopOpen : Statement .loopOpen := fun _ _ => rfl
theorem loopClose : Statement .loopClose := fun _ _ => rfl

theorem nop (code : Sys2Proof.Code) : Statement (.nop code) := by
  intro h rest
  have key : ∀ c : Sys2Proof.Code, (Sys2Proof.Instr.nop c).wellFormed = true → Sys2Proof.decodeChar c = .nop c := by decide
  simp only [Sys2Proof.decode, Sys2Proof.encode, key code h]

end Sys2Proof.Laws.EncodingAgrees
end

