-- ==== Sys2Proof/Laws/Step.lean ====
section
/-! SUPPORT. What a step can do, said once: the inversion of the resolver's step, of the engine's part of a step, and of
`step`. Invariants are proved from these and never by unfolding the step. -/

namespace Sys2Proof.Machine

variable {s t : State}

/-- Everything a step in RESOLVE can do (R100, R109). -/
theorem State.resolveStep_cases (s : State) :
    (s.scan < s.progLen ∧ ∃ e, scanChar (s.progAt s.scan) s.scan s.stk s.jt = .error e ∧ s.resolveStep = s.raise e) ∨
    (s.scan < s.progLen ∧ ∃ stk jt, scanChar (s.progAt s.scan) s.scan s.stk s.jt = .ok (stk, jt) ∧
      s.resolveStep = { s with stk := stk, jt := jt, scan := s.scan + 1 }) ∨
    (s.progLen ≤ s.scan ∧ s.stk = [] ∧ s.resolveStep = s.startRun) ∨
    (s.progLen ≤ s.scan ∧ ∃ o below, s.stk = o :: below ∧ s.resolveStep = s.raise (.unmatchedOpen o)) := by
  by_cases hl : s.scan < s.progLen
  · cases hc : scanChar (s.progAt s.scan) s.scan s.stk s.jt with
    | error e => exact .inl ⟨hl, e, rfl, by simp [State.resolveStep, hl, hc]⟩
    | ok r => exact .inr (.inl ⟨hl, r.1, r.2, rfl, by simp [State.resolveStep, hl, hc]⟩)
  · cases hs : s.stk with
    | nil => exact .inr (.inr (.inl ⟨Nat.le_of_not_lt hl, rfl, by simp [State.resolveStep, hl, hs]⟩))
    | cons o below => exact .inr (.inr (.inr ⟨Nat.le_of_not_lt hl, o, below, rfl, by simp [State.resolveStep, hl, hs]⟩))

/-! The engine's part of a step, phase by phase (R120). -/

theorem State.runEngine_idle (hp : s.phase = .idle) : s.runEngine = .next s := by
  simp [State.runEngine, hp]

theorem State.runEngine_resolve (hp : s.phase = .resolve) : s.runEngine = .next s.resolveStep := by
  simp [State.runEngine, hp]

theorem State.runEngine_dispatch (hp : s.phase = .run) (hl : s.pc < s.progLen) : s.runEngine = s.dispatchStep := by
  simp [State.runEngine, hp, hl]

theorem State.runEngine_end (hp : s.phase = .run) (he : s.pc = s.progLen) : s.runEngine = .next s.endRun := by
  simp [State.runEngine, hp, he]

theorem State.runEngine_outside (hp : s.phase = .run) (ho : s.progLen < s.pc) :
    s.runEngine = .fault .pcOutsideProgram := by
  have h1 : ¬ s.pc < s.progLen := by omega
  have h2 : ¬ s.pc = s.progLen := by omega
  simp [State.runEngine, hp, h1, h2]

/-- Everything the engine's part of a step can do that answers a next state. -/
theorem State.runEngine_cases (h : s.runEngine = .next t) :
    (s.phase = .idle ∧ t = s) ∨
    (s.phase = .resolve ∧ t = s.resolveStep) ∨
    (s.phase = .run ∧ s.pc < s.progLen ∧ ∃ u, exec s.fetched s = .next u ∧ t = u.afterDispatch) ∨
    (s.phase = .run ∧ s.pc = s.progLen ∧ t = s.endRun) := by
  unfold State.runEngine at h
  split at h
  · next hp => cases h; exact .inl ⟨hp, rfl⟩
  · next hp => cases h; exact .inr (.inl ⟨hp, rfl⟩)
  · next hp =>
    split at h
    · next hl =>
      unfold State.dispatchStep at h
      split at h
      · next u hu => cases h; exact .inr (.inr (.inl ⟨hp, hl, u, hu, rfl⟩))
      · cases h
      · cases h
    · split at h
      · next he => cases h; exact .inr (.inr (.inr ⟨hp, he, rfl⟩))
      · cases h

/-- Everything a step can do that answers a next state. -/
theorem step_cases (h : step s = .next t) :
    (∃ rest, s.hostMove = (.hardwareReset, rest) ∧ t = s.hardwareReset rest) ∨
    (∃ a c rest, s.hostMove = (.progWrite a c, rest) ∧ s.phase = .idle ∧ isProgAddress s.progMax a = true ∧
      t = { s.tick rest with prog := mapInsert s.prog a c }) ∨
    (∃ n rest, s.hostMove = (.execute n, rest) ∧ s.phase = .idle ∧ fitsProgMax s.progMax n = true ∧
      s.writtenBelow n = true ∧
      ∃ u : State, u = { s.tick rest with
        progLen := n, pc := 0, jt := [], stk := [], scan := 0, phase := .resolve } ∧ t = u.record [.execute u.source]) ∨
    (∃ rest, s.hostMove = (.reset, rest) ∧ s.phase = .idle ∧ t = (s.tick rest).resetCommand) ∨
    (s.rstAsserted = false ∧ (s.phase = .idle → s.hostMove.1 = .pause) ∧
      (s.tick s.movesWhileBusy).runEngine = .next t) := by
  obtain ⟨m, rest, hm⟩ : ∃ m rest, s.hostMove = (m, rest) := ⟨_, _, rfl⟩
  have ready : s.cmdReady = true ↔ s.phase = .idle := by simp [State.cmdReady]
  simp only [step, State.sequencerStep, hm] at h
  simp only [hm, State.rstAsserted, State.movesWhileBusy]
  cases m with
  | hardwareReset => cases h; exact .inl ⟨rest, rfl, rfl⟩
  | pause => exact .inr (.inr (.inr (.inr ⟨rfl, fun _ => rfl, h⟩)))
  | progWrite a c =>
    dsimp only at h
    split at h
    · next hr =>
      unfold State.writeProgram at h
      split at h
      · next ha => cases h; exact .inr (.inl ⟨a, c, rest, rfl, ready.1 hr, ha, rfl⟩)
      · cases h
    · next hr => exact .inr (.inr (.inr (.inr ⟨rfl, fun hp => absurd (ready.2 hp) hr, h⟩)))
  | execute n =>
    dsimp only at h
    split at h
    · next hr =>
      unfold State.acceptExecute at h
      split at h
      · cases h
      · next hf =>
        split at h
        · cases h
        · next hw =>
          cases h
          exact .inr (.inr (.inl ⟨n, rest, rfl, ready.1 hr, by simpa using hf,
            by simpa using (show ¬ (!s.writtenBelow n) = true from hw), _, rfl, rfl⟩))
    · next hr => exact .inr (.inr (.inr (.inr ⟨rfl, fun hp => absurd (ready.2 hp) hr, h⟩)))
  | reset =>
    dsimp only at h
    split at h
    · next hr => cases h; exact .inr (.inr (.inr (.inl ⟨rest, rfl, ready.1 hr, rfl⟩)))
    · next hr => exact .inr (.inr (.inr (.inr ⟨rfl, fun hp => absurd (ready.2 hp) hr, h⟩)))

/-- While a run is in progress and no hardware reset is asserted, a step is the engine's own (R195). -/
theorem step_while_busy (hp : s.phase ≠ .idle) (hr : s.rstAsserted = false) :
    step s = (s.tick s.movesWhileBusy).runEngine := by
  obtain ⟨m, rest, hm⟩ : ∃ m rest, s.hostMove = (m, rest) := ⟨_, _, rfl⟩
  have hn : s.cmdReady = false := by simp [State.cmdReady, hp]
  simp only [State.rstAsserted, hm] at hr
  simp only [step, State.sequencerStep, State.movesWhileBusy, hm]
  cases m <;> simp_all [HostMove.isHardwareReset]

/-- A pause in any phase: the step is the engine's own. -/
theorem step_pause {rest : Feed HostMove} (hm : s.hostMove = (.pause, rest)) : step s = (s.tick rest).runEngine := by
  simp [step, State.sequencerStep, hm]

/-- The resolver's part of a step while nothing preempts it. -/
theorem step_resolve (hp : s.phase = .resolve) (hr : s.rstAsserted = false) :
    step s = .next (s.tick s.movesWhileBusy).resolveStep := by
  rw [step_while_busy (by simp [hp]) hr]
  simp [State.runEngine, hp]

/-- A dispatch step: the meaning of the fetched instruction, then the dispatch loop's increment (R126). -/
theorem step_dispatch {u : State} (hp : s.phase = .run) (hl : s.pc < s.progLen) (hr : s.rstAsserted = false)
    (h : exec s.fetched (s.tick s.movesWhileBusy) = .next u) : step s = .next u.afterDispatch := by
  rw [step_while_busy (by simp [hp]) hr]
  have hf : (s.tick s.movesWhileBusy).fetched = s.fetched := rfl
  simp [State.runEngine, hp, hl, State.dispatchStep, hf, h]

theorem step_hardwareReset {rest : Feed HostMove} (hm : s.hostMove = (.hardwareReset, rest)) :
    step s = .next (s.hardwareReset rest) := by
  simp [step, State.sequencerStep, hm]

theorem step_progWrite {a : Nat} {c : Code} {rest : Feed HostMove} (hp : s.phase = .idle)
    (hm : s.hostMove = (.progWrite a c, rest)) (ha : isProgAddress s.progMax a = true) :
    step s = .next { s.tick rest with prog := mapInsert s.prog a c } := by
  simp [step, State.sequencerStep, hm, State.cmdReady, hp, State.writeProgram, ha]

theorem step_reset {rest : Feed HostMove} (hp : s.phase = .idle) (hm : s.hostMove = (.reset, rest)) :
    step s = .next (s.tick rest).resetCommand := by
  simp [step, State.sequencerStep, hm, State.cmdReady, hp]

theorem step_execute {n : Nat} {rest : Feed HostMove} (hp : s.phase = .idle) (hm : s.hostMove = (.execute n, rest))
    (hf : fitsProgMax s.progMax n = true) (hw : s.writtenBelow n = true) :
    ∃ u : State, u = { s.tick rest with
        progLen := n, pc := 0, jt := [], stk := [], scan := 0, phase := .resolve } ∧
      step s = .next (u.record [.execute u.source]) := by
  have hw' : (s.tick rest).writtenBelow n = true := hw
  refine ⟨_, rfl, ?_⟩
  simp [step, State.sequencerStep, hm, State.cmdReady, hp, State.acceptExecute, hf, hw']

/-- What the increment does to an instruction that is not waiting. -/
theorem State.afterDispatch_of_done (h : s.waiting = false) : s.afterDispatch = { s with pc := s.pc + 1 } := by
  simp [State.afterDispatch, h, State.advance]

theorem State.afterDispatch_of_waiting (h : s.waiting = true) : s.afterDispatch = s := by
  simp [State.afterDispatch, h]

/-- The increment touches nothing but PC. -/
theorem State.afterDispatch_eq (s : State) : s.afterDispatch = { s with pc := s.afterDispatch.pc } := by
  unfold State.afterDispatch; split <;> rfl

end Sys2Proof.Machine
end

