-- ==== Sys2Proof/Tests/Slice0.lean ====
section
/-! SUPPORT. The model's own tests. Expected results come from spec/: the vectors of 95_test_vectors.md (V, P) and the worked
examples of the rules named beside each. The last part shows, for each statement with hypotheses, states and operands that
meet all of them together. -/

namespace Sys2Proof.Tests

open Sys2Proof.Machine

/-! ### Small states -/

/-- The program locations that hold `cs`, from address `a` on. -/
def located : List Code → Nat → List (Nat × Code)
  | [], _ => []
  | c :: cs, a => (a, c) :: located cs (a + 1)

/-- IDLE, with `cs` in the program memory and nothing done yet. -/
def loaded (cs : List Code) : State := { State.reset with prog := located cs 0 }

/-- The start of RESOLVE for the source `cs`. -/
def resolving (cs : List Code) : State :=
  { loaded cs with progLen := cs.length, phase := .resolve, log := [.construct, .execute cs] }

/-- RUN at index `pc` of the source `cs`, whose table is `jt`. -/
def running (cs : List Code) (jt : List (Nat × Nat)) (pc : Nat) : State :=
  { resolving cs with phase := .run, jt := jt, pc := pc }

/-- What a test checks of an outcome. -/
def seen {α : Type} (f : State → α) (o : Host.Outcome State Fault Refusal) : Option α := (nextOf o).map f

/-- The source of P1, `>++[<++>-]`. -/
def p1 : List Code := [0x3E, 0x2B, 0x2B, 0x5B, 0x3C, 0x2B, 0x2B, 0x3E, 0x2D, 0x5D]

/-- The host that makes the moves `ms` and then nothing more. -/
def moving (ms : List HostMove) : Feed HostMove := ⟨ms, .always .pause⟩

/-- P1 at its `]`, the current cell holding `v` (V36 to V38). -/
def atClose (v : Byte) : State := { running p1 [(9, 3)] 9 with tape := tapeSet [] 1 v, ptr := ⟨1, by decide⟩ }

/-- RUN at a `,` that the host answers after `waits` steps with `a`. -/
def asking (waits : Nat) (a : InAnswer) : State :=
  { running [0x2C] [] 0 with input := ⟨List.replicate waits none ++ some a :: [], .always (some .noByte)⟩ }

/-- RUN at a `.` that the host accepts after `waits` steps, the cell holding 200. -/
def offering (waits : Nat) : State :=
  { running [0x2E] [] 0 with tape := [(0, 200#8)], accept := ⟨List.replicate waits false ++ true :: [], .always true⟩ }

/-! ### WellFormed -/

theorem test_nop_is_none_of_the_eight :
    ∀ c ∈ instrCodes, (Instr.nop c).wellFormed = false := by decide

theorem test_wellFormed_accepts :
    (∀ c ∈ [0x00#8, 0x61#8, 0x5C#8, 0x80#8, 0xFF#8], (Instr.nop c).wellFormed = true) ∧
      ∀ i ∈ [Instr.right, .left, .inc, .dec, .out, .inp, .loopOpen, .loopClose], i.wellFormed = true := by decide

/-! ### Decode: every constructor from a word written out from R84 and R85 -/

theorem test_decode_right : decode [0b00111110] = .ok (.right, []) := by rfl
theorem test_decode_left : decode [0b00111100] = .ok (.left, []) := by rfl
theorem test_decode_inc : decode [0b00101011] = .ok (.inc, []) := by rfl
theorem test_decode_dec : decode [0b00101101] = .ok (.dec, []) := by rfl
theorem test_decode_out : decode [0b00101110] = .ok (.out, []) := by rfl
theorem test_decode_inp : decode [0b00101100] = .ok (.inp, []) := by rfl
theorem test_decode_loopOpen : decode [0b01011011] = .ok (.loopOpen, []) := by rfl
theorem test_decode_loopClose : decode [0b01011101] = .ok (.loopClose, []) := by rfl

/-- V22: the codes next to an instruction's, or one bit away. -/
theorem test_decode_nop :
    ∀ c ∈ [0x00#8, 0x0A#8, 0x20#8, 0x28#8, 0x29#8, 0x2A#8, 0x2F#8, 0x3D#8, 0x3F#8, 0x5A#8, 0x5C#8, 0x5E#8, 0x7B#8, 0x7D#8,
      0x7F#8, 0x80#8, 0xBE#8, 0xFF#8], decodeChar c = .nop c := by decide

/-- The only list that holds no instruction is refused by name. -/
theorem test_decode_rejects_nothing_to_read : decode [] = .error .endOfSource := by rfl

/-- R81: 0x013E in a 16-bit program memory is not `>`, and 0x003E is. -/
theorem test_decode_wide :
    decodeAt 0x013E#16 (.nop 0) = .nop 0 ∧ decodeAt 0x003E#16 (.nop 0) = .right := by decide

/-- The host's numbering: one byte, bit 0 the least significant. -/
theorem test_table_words :
    decodeTableWord 8 0x2B = some .inc ∧ decodeTableWord 8 0x5D = some .loopClose ∧ decodeTableWord 8 0x61 = some (.nop 0x61) := by
  decide

/-- The placed word is the first instruction after reset, and it runs. -/
theorem test_placed_word_runs :
    seen (fun t => (t.tape, t.pc)) (step (State.reset.withFetchWord 8 0x2D)) = some ([(0, 255#8)], 1) := by decide

/-! ### The instructions -/

/-- V2, V5. -/
theorem test_right_wraps :
    ptrRight ⟨29999, by decide⟩ = ⟨0, by decide⟩ ∧ ptrRight ⟨29998, by decide⟩ = ⟨29999, by decide⟩ := by decide

/-- V1: one dispatch step. -/
theorem test_right_steps : seen (fun t => (t.ptr.val, t.pc)) (step (running [0x3E] [] 0)) = some (1, 1) := by decide

/-- V4, V3. -/
theorem test_left_wraps :
    ptrLeft ⟨0, by decide⟩ = ⟨29999, by decide⟩ ∧ ptrLeft ⟨1, by decide⟩ = ⟨0, by decide⟩ := by decide

/-- V4: one dispatch step. -/
theorem test_left_steps : seen (fun t => (t.ptr.val, t.pc)) (step (running [0x3C] [] 0)) = some (29999, 1) := by decide

/-- V11, V14. -/
theorem test_inc_wraps : cellInc 255 = 0 ∧ cellInc 127 = 128 := by decide

/-- V11 in one step: a cell that comes back to 0 is not listed. -/
theorem test_inc_steps :
    seen (fun t => (t.tape, t.pc)) (step { running [0x2B] [] 0 with tape := [(0, 255#8)] }) = some ([], 1) := by decide

/-- V13, V15. -/
theorem test_dec_wraps : cellDec 0 = 255 ∧ cellDec 128 = 127 := by decide

/-- V12. -/
theorem test_dec_steps :
    seen (fun t => (t.tape, t.pc)) (step { running [0x2D] [] 0 with tape := [(0, 1#8)] }) = some ([], 1) := by decide

/-- V23: a unit 0 is a unit like any other. -/
theorem test_out_delivers_zero :
    seen (fun t => (t.outHistory, t.tape, t.pc)) (step (running [0x2E] [] 0)) = some ([0#8], [], 1) := by decide

/-- R198: not accepted yet, so not delivered, and PC stays. -/
theorem test_out_waits :
    seen (fun t => (t.outHistory, t.outOffer, t.pc)) (step (offering 1)) = some ([], some 200#8, 0) := by decide

/-- V30: the old value has no influence. -/
theorem test_inp_overwrites :
    seen (fun t => (t.tape, t.inRequests, t.pc)) (step { asking 0 (.byte 4) with tape := [(0, 9#8)] }) =
      some ([(0, 4#8)], 1, 1) := by decide

/-- V28: NoByte stores 0. -/
theorem test_inp_no_byte :
    seen (fun t => (t.tape, t.inPosition)) (step { asking 0 .noByte with tape := [(0, 1#8)] }) = some ([], 0) := by decide

/-- R197: a host that answers and accepts as it likes. Both instructions run, whatever it does. -/
theorem test_drawn_host_runs :
    (nextOf (step { running [0x2C] [] 0 with input := ⟨[], .drawn 3⟩ })).isSome = true ∧
      (nextOf (step { running [0x2E] [] 0 with accept := ⟨[], .drawn 3⟩ })).isSome = true := ⟨rfl, rfl⟩

/-- V34, V35. -/
theorem test_open_never_tests_the_cell :
    seen State.pc (step (running p1 [(9, 3)] 3)) = some 4 ∧
      seen State.pc (step { running p1 [(9, 3)] 3 with tape := [(0, 2#8)] }) = some 4 := by decide

/-- V36, V37: the resume index is JT[9] + 1. -/
theorem test_close_taken :
    seen State.pc (step (atClose 1)) = some 4 ∧ seen State.pc (step (atClose 255)) = some 4 := by decide

/-- V38. -/
theorem test_close_falls : seen State.pc (step (atClose 0)) = some 10 := by decide

/-- V22. -/
theorem test_nop_only_advances :
    step (running [0x80] [] 0) = .next { running [0x80] [] 0 with pc := 1 } := by rfl

/-! ### The resolver: R111, R112 -/

/-- V46: `[a[b]c[d]e]`. -/
theorem test_resolve_mixed :
    resolve [0x5B, 0x61, 0x5B, 0x62, 0x5D, 0x63, 0x5B, 0x64, 0x5D, 0x65, 0x5D] = .ok [(4, 2), (8, 6), (10, 0)] := by rfl

/-- V47, R112: `+[[-]>[,.]<]`. -/
theorem test_resolve_trace :
    resolve [0x2B, 0x5B, 0x5B, 0x2D, 0x5D, 0x3E, 0x5B, 0x2C, 0x2E, 0x5D, 0x3C, 0x5D] = .ok [(4, 2), (9, 6), (11, 1)] := by
  rfl

/-- V49, V55, V56, V58. -/
theorem test_resolve_unmatched_close :
    resolve [0x5D] = .error (.unmatchedClose 0) ∧
      resolve [0x5B, 0x5D, 0x5D] = .error (.unmatchedClose 2) ∧
      resolve [0x5B, 0x5B, 0x5D, 0x5D, 0x5D] = .error (.unmatchedClose 4) ∧
      resolve [0x5B, 0x5D, 0x5D, 0x5B] = .error (.unmatchedClose 2) := by
  refine ⟨rfl, rfl, rfl, rfl⟩

/-- V51, V52, V54, V60. -/
theorem test_resolve_unmatched_open :
    resolve [0x5B, 0x5B, 0x5D] = .error (.unmatchedOpen 0) ∧
      resolve [0x5B, 0x5B] = .error (.unmatchedOpen 1) ∧
      resolve [0x5B, 0x5B, 0x5D, 0x5B] = .error (.unmatchedOpen 3) ∧
      resolve [0x78, 0x5B, 0x79, 0x5B, 0x7A] = .error (.unmatchedOpen 3) := by
  refine ⟨rfl, rfl, rfl, rfl⟩

/-- V61, `+.]`: the error's entry, in the step that scans the `]`. -/
theorem test_error_entry :
    seen (fun t => (t.result, t.phase, t.pc, t.jt, t.tape, t.outHistory))
        (step { resolving [0x2B, 0x2E, 0x5D] with scan := 2 }) =
      some (⟨.unmatchedClose, 2⟩, .idle, 0, [], [], []) := by rfl

/-! ### Ports and commands -/

/-- R199: an address at or above TAPE_LEN has no cell; the last one below it has. -/
theorem test_observation_port :
    State.reset.obsCell 29999 = some 0#8 ∧ State.reset.obsCell 30000 = none ∧ (running [] [] 0).obsCell 0 = none := by decide

/-- R6, R24: PC_W for engines of 0, 1, 3, 4 and 255 characters. -/
theorem test_pcW : [0, 1, 3, 4, 255].map Config.pcW = [0, 1, 2, 3, 8] := by decide

/-- R192: a RESET presented during a run waits, and the run goes on. -/
theorem test_command_waits :
    seen (fun t => (t.pc, t.moves)) (step { running [0x2B] [] 0 with moves := moving [.reset] }) = some (1, moving [.reset]) := by decide

/-! ### Witnesses: the hypotheses of the statements can be met -/

/-- ExampleWords and the ports' statement have none; the widths of DecodingMatchesEveryBitAtAnyWidth start at 8. -/
theorem test_witness_width : 8 ≤ 8 ∧ decodeAt 0x3E#8 (.nop 0) = .right ∧ decodeAt 0x3F#8 (.nop 0x3F) = .nop 0x3F := by decide

/-- DecodeAndEncodeProgramsAgree. -/
theorem test_witness_wellFormed_program :
    ∀ i ∈ [Instr.right, .nop 0x61, .loopOpen, .nop 0xFF, .loopClose], i.wellFormed = true := by decide

/-- EveryOtherCharacterOnlyTakesItsPlace, at both ends of the codes. -/
theorem test_witness_other_character :
    (∀ c ∈ [0x00#8, 0xFF#8], c ∉ instrCodes) ∧
      ∀ s ∈ [running [0x00] [] 0, running [0xFF] [] 0], s.phase = .run ∧ s.pc < s.progLen ∧ s.rstAsserted = false ∧
        s.waiting = false ∧ s.progAt s.pc ∉ instrCodes := by decide

/-- HardwareResetGivesTheFreshEngine and HardwareResetWithdrawsAndReportsNothing: asserted in IDLE, and in RUN with a unit
on offer; and a step in IDLE that is no EXECUTE. -/
theorem test_witness_hardware_reset :
    ({ State.reset with moves := moving [.hardwareReset] } : State).hostMove = (.hardwareReset, noMoves) ∧
      ({ offering 1 with outOffer := some 200, moves := moving [.hardwareReset, .pause] } : State).hostMove =
        (.hardwareReset, moving [.pause]) ∧
      (State.reset.phase = .idle ∧ step State.reset = .next State.reset ∧ ∀ n, State.reset.hostMove.1 ≠ .execute n) := by
  refine ⟨rfl, rfl, rfl, rfl, fun n h => ?_⟩
  cases h

/-- ResetCommandZeroesTheEngine. -/
theorem test_witness_reset_command :
    ({ loaded [0x2B] with tape := [(0, 7#8)], moves := moving [.reset] } : State).phase = .idle ∧
      ({ loaded [0x2B] with tape := [(0, 7#8)], moves := moving [.reset] } : State).hostMove = (.reset, noMoves) := by decide

/-- ExecuteIsAcceptedInIdle: the length at PROG_MAX, and 0. -/
theorem test_witness_execute :
    ∀ s ∈ [({ loaded [0x2B, 0x2D] with progMax := some 2, moves := moving [.execute 2] } : State)],
      s.phase = .idle ∧ s.hostMove = (.execute 2, noMoves) ∧ fitsProgMax s.progMax 2 = true ∧ s.writtenBelow 2 = true ∧
        fitsProgMax s.progMax 0 = true ∧ s.writtenBelow 0 = true := by decide

/-- ExecuteOfASourceStartsItsRun. -/
theorem test_witness_execute_source :
    ∀ s ∈ [({ State.reset with progMax := some 2, moves := moving (movesOfSource [0x2B, 0x2D]) } : State)],
      s.phase = .idle ∧ s.moves = ⟨movesOfSource [0x2B, 0x2D] ++ [], .always .pause⟩ ∧ fitsProgMax s.progMax [0x2B#8, 0x2D#8].length = true := by
  decide

/-- ForbiddenLaunchesAreRefused, clause by clause, each at its boundary. -/
theorem test_witness_forbidden_launches :
    fitsProgMax (some 2) 3 = false ∧ fitsProgMax (some 2) 2 = true ∧
      (∀ s ∈ [({ loaded [0x2B] with progMax := some 2, moves := moving [.execute 2] } : State)],
        s.phase = .idle ∧ s.hostMove = (.execute 2, noMoves) ∧ fitsProgMax s.progMax 2 = true ∧ 1 < 2 ∧ mapGet s.prog 1 = none) ∧
      (∀ s ∈ [({ loaded [0x2B] with progMax := some 2, moves := moving [.execute 3] } : State)],
        s.phase = .idle ∧ s.hostMove = (.execute 3, noMoves) ∧ fitsProgMax s.progMax 3 = false) ∧
      ∀ s ∈ [({ State.reset with progMax := some 2, moves := moving [.progWrite 2 0x2B] } : State)],
        s.phase = .idle ∧ s.hostMove = (.progWrite 2 0x2B, noMoves) ∧ isProgAddress s.progMax 2 = false := by decide

/-- ProgramWriteSetsOneLocation, at the last location and at another. -/
theorem test_witness_program_write :
    ∀ s ∈ [({ State.reset with progMax := some 2, moves := moving [.progWrite 1 0x2B] } : State)],
      s.phase = .idle ∧ s.hostMove = (.progWrite 1 0x2B, noMoves) ∧ isProgAddress s.progMax 1 = true ∧ 0 ≠ 1 := by decide

/-- HostMovesDoNotTouchARun, in RESOLVE and in RUN, for a command, a write and a pause. -/
theorem test_witness_host_moves_in_a_run :
    ∀ m ∈ [HostMove.execute 1, .reset, .progWrite 0 0x2D, .pause],
      ∀ s ∈ [({ resolving [0x2B] with moves := moving [m] } : State), { running [0x2B] [] 0 with moves := moving [m] }],
        s.phase ≠ .idle ∧ s.hostMove.1 ≠ .hardwareReset := by decide

/-- ResolutionSucceedsExactlyOnBalancedSources and ResolvedTableMatchesTheBrackets: `[[]]` and the empty source. -/
theorem test_witness_resolve_ok :
    resolve [0x5B, 0x5B, 0x5D, 0x5D] = .ok [(2, 1), (3, 0)] ∧ resolve [] = .ok [] := ⟨rfl, rfl⟩

/-- UnmatchedCloseIsTheLeftmost and UnmatchedCloseTakesPrecedence: `[]]`, with a `[` after it. -/
theorem test_witness_unmatched_close :
    ([0x5B, 0x5D, 0x5D] : List Code)[2]? = some Config.codeClose ∧
      Balanced (([0x5B, 0x5D, 0x5D] : List Code).take 2) ∧
      resolve ([0x5B, 0x5D, 0x5D] ++ [0x5B]) = .error (.unmatchedClose 2) :=
  ⟨rfl, .pair [] [] .nil .nil, rfl⟩

/-- UnmatchedOpenIsTheLastPushed: `[[]`. -/
theorem test_witness_unmatched_open :
    ([0x5B, 0x5B, 0x5D] : List Code)[0]? = some Config.codeOpen ∧
      Balanced (([0x5B, 0x5B, 0x5D] : List Code).drop 1) ∧
      ∀ k, resolve [0x5B, 0x5B, 0x5D] ≠ .error (.unmatchedClose k) := by
  refine ⟨rfl, .pair [] [] .nil .nil, fun k h => ?_⟩
  cases h

/-- StepwiseScanComputesResolve, for a source that resolves and one that does not. -/
theorem test_witness_scan :
    ∀ s ∈ [resolving [0x5B, 0x5D], resolving [0x5D]],
      s.phase = .resolve ∧ s.scan = 0 ∧ s.stk = [] ∧ s.jt = [] ∧ s.pc = 0 ∧ s.moves = noMoves := by decide

/-- StructuralErrorEndsTheRunWithItsReport, both ways. -/
theorem test_witness_structural_error :
    (∀ s ∈ [resolving [0x5D]], s.phase = .resolve ∧ s.rstAsserted = false ∧ s.scan < s.progLen) ∧
      scanChar ((resolving [0x5D]).progAt 0) 0 [] [] = .error (.unmatchedClose 0) ∧
      ∀ s ∈ [({ resolving [0x5B] with scan := 1, stk := [0] } : State)],
        s.phase = .resolve ∧ s.rstAsserted = false ∧ s.progLen ≤ s.scan ∧ s.stk = 0 :: [] := by
  refine ⟨by decide, rfl, by decide⟩

/-- LeavingResolveDiscardsTheTransients: by an error and by success. -/
theorem test_witness_leaving_resolve :
    ∀ s ∈ [({ resolving [0x5B] with scan := 1, stk := [0] } : State), { resolving [0x2B] with scan := 1 }],
      s.phase = .resolve ∧ seen (fun t => decide (t.phase ≠ .resolve)) (step s) = some true := by decide

/-- StepRunsTheDecodedInstruction. -/
theorem test_witness_step_runs :
    (∀ s ∈ [running p1 [(9, 3)] 9], s.phase = .run ∧ s.pc < s.progLen ∧ s.rstAsserted = false) ∧
      decode [(running p1 [(9, 3)] 9).progAt 9] = .ok (.loopClose, []) := by
  refine ⟨by decide, rfl⟩

/-- RunEndsAtTheProgramLength, and the states of StatesWithoutARuleStopByName. -/
theorem test_witness_run_ends :
    (∀ s ∈ [running p1 [(9, 3)] 10, running [] [] 0], s.phase = .run ∧ s.pc = s.progLen ∧ s.rstAsserted = false) ∧
      seen (fun t => decide (t.phase ≠ .run)) (step (running p1 [(9, 3)] 10)) = some true ∧
      (∀ s ∈ [running [] [] 1], s.phase = .run ∧ s.progLen < s.pc ∧ s.rstAsserted = false) ∧
      ∀ s ∈ [({ running [0x5D] [] 0 with tape := [(0, 1#8)] } : State)], s.cell.toNat ≠ 0 ∧ mapGet s.jt s.pc = none := by
  decide

/-- EmptySourceEndsAtOnce. -/
theorem test_witness_empty_source :
    ∀ s ∈ [({ State.reset with tape := [(3, 5#8)], moves := moving [.execute 0] } : State)],
      s.phase = .idle ∧ s.moves = noMoves.push (.execute 0) := by decide

/-- CellMovesFormARing. -/
theorem test_witness_canonical_tape :
    Memory.wf ({ State.reset with tape := [(0, 1#8), (29999, 255#8)] } : State).tape = true := by decide

/-- OutDeliversTheCell, InpStoresTheAnswer and WaitingChangesOnlyThePort: every answer of the host. -/
theorem test_witness_answers :
    (offering 0).hostAccept.1 = true ∧ (offering 1).hostAccept.1 = false ∧
      (asking 0 (.byte 255)).hostAnswer.1 = some (.byte 255) ∧ (asking 0 .noByte).hostAnswer.1 = some .noByte ∧
      (asking 1 .noByte).hostAnswer.1 = none ∧
      ∀ s ∈ [offering 1, asking 1 .noByte], s.phase = .run ∧ s.pc < s.progLen ∧ s.rstAsserted = false ∧
        (s.fetched = .out ∧ s.hostAccept.1 = false ∨ s.fetched = .inp ∧ s.hostAnswer.1 = none) := by decide

/-- OneRequestPerInp, with no wait and with two. -/
theorem test_witness_request :
    ∀ n ∈ [0, 2], ∀ s ∈ [asking n (.byte 7)], s.phase = .run ∧ s.pc < s.progLen ∧ s.fetched = .inp ∧ s.inReq = false ∧
      s.outOffer = none ∧ s.moves = noMoves ∧ (∀ k, k < n → feedAt Config.hostAnswer s.input k = none) ∧
      feedAt Config.hostAnswer s.input n = some (.byte 7) := by decide

/-- OneUnitPerOut, with no wait and with two. -/
theorem test_witness_unit :
    ∀ n ∈ [0, 2], ∀ s ∈ [offering n], s.phase = .run ∧ s.pc < s.progLen ∧ s.fetched = .out ∧ s.inReq = false ∧
      s.outOffer = none ∧ s.moves = noMoves ∧ (∀ k, k < n → feedAt Config.hostAccepts s.accept k = false) ∧
      feedAt Config.hostAccepts s.accept n = true := by decide

/-- FeedsGiveTheHostsChoicesInOrder: the first and the last listed item, and the first choices after them. -/
theorem test_witness_feed :
    feedAt Config.hostAnswer ⟨[none, some .noByte], .drawn 5⟩ 0 = none ∧
      feedAt Config.hostAnswer ⟨[none, some .noByte], .drawn 5⟩ 1 = some .noByte ∧
      feedAt Config.hostAnswer ⟨[none, some .noByte], .drawn 5⟩ 2 = Config.hostAnswer 5 ∧
      feedAt Config.hostAnswer ⟨[none, some .noByte], .drawn 5⟩ 3 = Config.hostAnswer 6 := ⟨rfl, rfl, rfl, rfl⟩

/-- OpenDoesNothing. -/
theorem test_witness_open :
    ∀ s ∈ [running p1 [(9, 3)] 3], s.phase = .run ∧ s.pc < s.progLen ∧ s.rstAsserted = false ∧ s.waiting = false ∧
      s.progAt s.pc = 0x5B := by decide

/-- CloseJumpsBackWhileTheCellIsNotZero: the cell 0, 1 and 255. -/
theorem test_witness_close :
    (∀ s ∈ [atClose 0, atClose 1, atClose 255], s.phase = .run ∧ s.pc < s.progLen ∧ s.rstAsserted = false ∧
        s.waiting = false ∧ s.progAt s.pc = 0x5D ∧ mapGet s.jt s.pc = some 3) ∧
      (atClose 0).cell.toNat = 0 ∧ (atClose 1).cell.toNat ≠ 0 ∧ (atClose 255).cell.toNat ≠ 0 := by decide

/-- The invariant holds in RUN at a `]`. -/
theorem test_witness_inv_run : Inv (running [0x5B, 0x5D] [(1, 0)] 1) := by
  refine ⟨⟨rfl, rfl, rfl⟩, ⟨by decide, by decide, rfl, rfl, by decide, fun _ _ _ => rfl, by decide, by decide⟩,
    ⟨rfl, rfl, rfl⟩, ⟨?_, ?_⟩⟩
  · intro h; cases h
  · intro v h; cases h

/-- The invariant holds in RESOLVE, PROG_MAX being just enough. -/
theorem test_witness_inv_resolve :
    Inv { resolving [0x5B, 0x5D] with progMax := some 2, scan := 1, stk := [0] } := by
  refine ⟨⟨rfl, rfl, rfl⟩, ⟨by decide, by decide, rfl, rfl, by decide, ?_, by decide, by decide⟩, ⟨rfl, rfl⟩, ⟨?_, ?_⟩⟩
  · intro a c h
    have hm := mem_of_mapGet h
    simp only [resolving, loaded, located, List.mem_cons, Prod.mk.injEq, List.not_mem_nil, or_false] at hm
    rcases hm with ⟨rfl, _⟩ | ⟨rfl, _⟩ <;> decide
  · intro h; cases h
  · intro v h; cases h

/-- The invariant holds while a `,` waits. -/
theorem test_witness_inv_waiting : Inv { asking 1 .noByte with inReq := true } := by
  refine ⟨⟨rfl, rfl, rfl⟩, ⟨by decide, by decide, rfl, rfl, by decide, fun _ _ _ => rfl, by decide, by decide⟩,
    ⟨rfl, rfl, rfl⟩, ⟨?_, ?_⟩⟩
  · intro _; exact ⟨rfl, by decide, rfl, rfl⟩
  · intro v h; cases h

/-- StepKeepsTheTapeCanonical and StepKeepsTheInvariant: such a state takes a step. -/
theorem test_witness_inv_step :
    Memory.wf (running [0x5B, 0x5D] [(1, 0)] 1).tape = true ∧ Inv (running [0x5B, 0x5D] [(1, 0)] 1) ∧
      step (running [0x5B, 0x5D] [(1, 0)] 1) = .next { running [0x5B, 0x5D] [(1, 0)] 1 with pc := 2 } :=
  ⟨rfl, test_witness_inv_run, rfl⟩

/-- CanonicalTapesReadingAlikeAreEqual. -/
theorem test_witness_tapes_alike :
    Memory.wf [(2, 9#8)] = true ∧ ∀ a, tapeGet [(2, 9#8)] a = tapeGet (tapeSet [] 2 9) a := ⟨by decide, fun _ => rfl⟩

/-- EveryRunStepIsEnabled and JumpLookupCannotMiss. -/
theorem test_witness_enabled :
    Inv (running [0x5B, 0x5D] [(1, 0)] 1) ∧
      ∀ s ∈ [running [0x5B, 0x5D] [(1, 0)] 1], s.phase = .run ∧ s.phase ≠ .idle ∧ 1 < s.progLen ∧ s.progAt 1 = 0x5D :=
  ⟨test_witness_inv_run, by decide⟩

/-- StepKeepsTheHistoryLegal: in RUN, and while a `,` waits. -/
theorem test_witness_history :
    (Inv (running [0x5B, 0x5D] [(1, 0)] 1) ∧ (running [0x5B, 0x5D] [(1, 0)] 1).historyLegal ∧
        (nextOf (step (running [0x5B, 0x5D] [(1, 0)] 1))).isSome = true) ∧
      Inv { asking 1 .noByte with inReq := true, log := [.construct, .execute [0x2C], .inRequest] } ∧
      State.historyLegal { asking 1 .noByte with inReq := true, log := [.construct, .execute [0x2C], .inRequest] } := by
  refine ⟨⟨test_witness_inv_run, rfl, rfl⟩, ?_, rfl⟩
  have h := test_witness_inv_waiting
  exact ⟨h.memories, ⟨h.bounds.pc, h.bounds.scan, h.bounds.fits, h.bounds.resultFits, h.bounds.written, h.bounds.addresses,
    h.bounds.table, h.bounds.stack⟩,
    h.resolver, ⟨h.ports.request, h.ports.offer⟩⟩

/-- PositionsFitTheirRegisters: a scan with one index on the stack, PROG_MAX just enough. -/
theorem test_witness_progMax :
    Inv { resolving [0x5B, 0x5D] with progMax := some 2, scan := 1, stk := [0] } ∧
      ({ resolving [0x5B, 0x5D] with progMax := some 2, scan := 1, stk := [0] } : State).progMax = some 2 :=
  ⟨test_witness_inv_resolve, rfl⟩

/-- PhaseMovesOnlyAsListed, HistoryOnlyGrows, StreamsMoveOnlyByTheirInstructions, DonePulsesExactlyAtCompletions, ProgMaxNeverChanges: one step
of each kind that answers a next state. -/
theorem test_witness_steps :
    ∀ s ∈ [State.reset, { State.reset with moves := moving [.hardwareReset] }, { State.reset with moves := moving [.execute 0] },
        { State.reset with moves := moving [.reset] }, resolving [0x5D], resolving [0x2B], resolving [], running [0x2E] [] 0,
        running [0x2C] [] 0, running [0x2B] [] 1],
      (nextOf (step s)).isSome = true := by decide

/-- ProgramIsFixedDuringARun, TapeAndPointerPersistOutsideRun, RunWritesOnlyTheCurrentCell: a step that writes the cell, and
a step outside RUN that is no RESET. -/
theorem test_witness_in_and_outside_run :
    (running [0x2B] [] 0).phase = .run ∧ (running [0x2B] [] 0).rstAsserted = false ∧
      seen (fun t => tapeGet t.tape 0 != tapeGet (running [0x2B] [] 0).tape 0) (step (running [0x2B] [] 0)) = some true ∧
      (resolving [0x2B]).phase ≠ .run ∧ (resolving [0x2B]).rstAsserted = false ∧ (resolving [0x2B]).phase ≠ .idle ∧
      (nextOf (step (resolving [0x2B]))).isSome = true := by decide

/-- ProgramMemoryStaysUntilWrittenAnew: a RESET, a write that is ignored and an EXECUTE that waits in a run, an EXECUTE and a
write in IDLE; and the end of a run whose host only issues EXECUTE again, at the bound and for the empty source. -/
theorem test_witness_program_memory_stays :
    (∀ s ∈ [({ loaded [0x2B] with moves := moving [.reset] } : State),
        { running [0x2B] [] 0 with moves := moving [.progWrite 0 0x2D] }, { running [0x2B] [] 0 with moves := moving [.execute 1] },
        { loaded [0x2B] with moves := moving [.execute 1] }, { loaded [0x2B] with moves := moving [.progWrite 0 0x2D] }],
      s.rstAsserted = false ∧ (nextOf (step s)).isSome = true) ∧
      ∀ s ∈ [({ running [0x2B] [] 1 with progMax := some 1, moves := moving [.pause, .execute 1] } : State),
          { running [] [] 0 with moves := moving [.pause, .execute 0] }],
        s.phase = .run ∧ s.pc = s.progLen ∧ s.moves = ⟨.pause :: .execute s.progLen :: [], .always .pause⟩ ∧
          fitsProgMax s.progMax s.progLen = true ∧ s.writtenBelow s.progLen = true := by decide

/-- PointerMovesOnlyByItsInstructions and ResultIsStableBetweenCompletions: a step that moves the pointer and one that
changes RESULT. -/
theorem test_witness_pointer_and_result_change :
    seen (fun t => decide (t.ptr ≠ (running [0x3E] [] 0).ptr)) (step (running [0x3E] [] 0)) = some true ∧
      seen (fun t => decide (t.result ≠ (resolving [0x5D]).result)) (step (resolving [0x5D])) = some true := by decide

/-- RunsDependOnlyOnTheState: two machines with different pasts, and a run. -/
theorem test_witness_same_but_log :
    SameButLog (running [0x2E] [] 0) { running [0x2E] [] 0 with log := [] } ∧
      (running [0x2E] [] 0).log ≠ [] ∧
      ∃ s', core.run 1 (running [0x2E] [] 0) = .next s' := ⟨rfl, by decide, _, rfl⟩

end Sys2Proof.Tests
end

section
/-! PROOFS. Positions and their registers (00_scope.md R5, R6; 10_state.md R34; 40_loop_resolver.md R110): what fits an
engine of PROG_MAX characters fits PC_W bits, and the scan stacks no more indices than it has read characters. -/

namespace Sys2Proof.Machine

/-! ### The widths -/

@[simp] theorem fitsProgMax_some (m n : Nat) : fitsProgMax (some m) n = true ↔ n ≤ m := by simp [fitsProgMax]

/-- PC_W is wide enough for every position of the engine, PROG_LEN = PROG_MAX among them (R6). -/
theorem lt_two_pow_pcW_of_le {n m : Nat} (h : n ≤ m) : n < 2 ^ Config.pcW m := by
  rcases Nat.eq_zero_or_pos m with rfl | hm
  · simpa [Config.pcW] using h
  · calc n ≤ m := h
      _ < 2 ^ (m.log2 + 1) := Nat.lt_log2_self
      _ = 2 ^ Config.pcW m := by rw [Config.pcW, if_neg hm.ne']

/-- PTR_W is wide enough for every cell index (R5). -/
theorem State.ptr_lt_two_pow_ptrW (s : State) : s.ptr.val < 2 ^ Config.ptrW :=
  s.ptr.isLt.trans_le Config.tapeLen_le_two_pow_ptrW

/-! ### The scan's stack -/

/-- What the scan of one character can do when it does not fail (R100, R101): push, pop and make an entry, or ignore. -/
theorem scanChar_ok_cases {c : Code} {i : Nat} {stk stk' : List Nat} {jt jt' : List (Nat × Nat)}
    (h : scanChar c i stk jt = .ok (stk', jt')) :
    (decodeChar c = .loopOpen ∧ stk' = i :: stk ∧ jt' = jt) ∨
    (decodeChar c = .loopClose ∧ ∃ o, stk = o :: stk' ∧ jt' = mapInsert jt i o) ∨
    (decodeChar c ≠ .loopOpen ∧ decodeChar c ≠ .loopClose ∧ stk' = stk ∧ jt' = jt) := by
  cases hd : decodeChar c with
  | loopOpen => simp_all [scanChar]
  | loopClose => cases stk <;> simp_all [scanChar]
  | _ => simp_all [scanChar]

theorem scanChar_stack_length_le {c : Code} {i : Nat} {stk stk' : List Nat} {jt jt' : List (Nat × Nat)}
    (h : scanChar c i stk jt = .ok (stk', jt')) : stk'.length ≤ stk.length + 1 := by
  obtain ⟨-, rfl, -⟩ | ⟨-, o, rfl, -⟩ | ⟨-, -, rfl, -⟩ := scanChar_ok_cases h
  · simp
  · simp only [List.length_cons]; omega
  · simp

/-- The scan of one more character: the character is scanned, and the rest from where that leaves stack and table. -/
theorem scanFrom_cons_ok {c : Code} {cs : List Code} {i : Nat} {stk : List Nat} {jt : List (Nat × Nat)}
    {r : List Nat × List (Nat × Nat)} (h : scanFrom (c :: cs) i stk jt = .ok r) :
    ∃ stk₁ jt₁, scanChar c i stk jt = .ok (stk₁, jt₁) ∧ scanFrom cs (i + 1) stk₁ jt₁ = .ok r := by
  rw [scanFrom] at h
  cases hc : scanChar c i stk jt with
  | error e => simp [hc] at h
  | ok p => exact ⟨p.1, p.2, rfl, by simpa [hc] using h⟩

theorem scanFrom_stack_length_le {cs : List Code} {i : Nat} {stk stk' : List Nat} {jt jt' : List (Nat × Nat)}
    (h : scanFrom cs i stk jt = .ok (stk', jt')) : stk'.length ≤ stk.length + cs.length := by
  induction cs generalizing i stk jt with
  | nil =>
    obtain ⟨rfl, -⟩ : stk = stk' ∧ jt = jt' := by simpa [scanFrom] using h
    simp
  | cons c cs ih =>
    obtain ⟨stk₁, jt₁, hc, hcs⟩ := scanFrom_cons_ok h
    have hstk₁ : stk₁.length ≤ stk.length + 1 := scanChar_stack_length_le hc
    have hstk' : stk'.length ≤ stk₁.length + cs.length := ih hcs
    simp only [List.length_cons]; omega

/-! ### What the invariant says of them -/

/-- In RESOLVE stack and table are those of the scan so far (R100, R109). -/
theorem ResolverInv.scanFrom_eq {s : State} (h : ResolverInv s) (hp : s.phase = .resolve) :
    scanFrom (s.source.take s.scan) 0 [] [] = .ok (s.stk, s.jt) := by
  rw [ResolverInv, hp] at h
  exact h.2

/-- Outside RESOLVE the stack is discarded (R34, R40). -/
theorem ResolverInv.stk_eq_nil {s : State} (h : ResolverInv s) (hp : s.phase ≠ .resolve) : s.stk = [] := by
  cases hq : s.phase with
  | idle => rw [ResolverInv, hq] at h; exact h.1
  | resolve => exact absurd hq hp
  | run => rw [ResolverInv, hq] at h; exact h.1

/-- R34, R110: each index on the stack was pushed by a character of its own. -/
theorem ResolverInv.stk_length_le_scan {s : State} (h : ResolverInv s) : s.stk.length ≤ s.scan := by
  by_cases hp : s.phase = .resolve
  · calc s.stk.length ≤ ([] : List Nat).length + (s.source.take s.scan).length :=
        scanFrom_stack_length_le (h.scanFrom_eq hp)
      _ ≤ s.scan := by simp
  · simp [h.stk_eq_nil hp]

theorem Inv.progLen_le_progMax {s : State} {m : Nat} (h : Inv s) (hm : s.progMax = some m) : s.progLen ≤ m := by
  simpa [hm] using h.bounds.fits

theorem Inv.resultIndex_le_progMax {s : State} {m : Nat} (h : Inv s) (hm : s.progMax = some m) : s.result.index ≤ m := by
  simpa [hm] using h.bounds.resultFits

/-- Settles O44: no position exceeds PROG_LEN and the error index not PROG_MAX, which bounds PROG_LEN; the stack holds at most
as many indices as the scan has read characters. -/
theorem positionsFitTheirRegisters : Obligations.PositionsFitTheirRegisters := by
  intro s m h hm
  have hlen : s.progLen ≤ m := h.progLen_le_progMax hm
  have fit {n : Nat} (hn : n ≤ s.progLen) : n < 2 ^ Config.pcW m := lt_two_pow_pcW_of_le (hn.trans hlen)
  refine ⟨fit h.bounds.pc, fit le_rfl, fit h.bounds.scan, lt_two_pow_pcW_of_le (h.resultIndex_le_progMax hm),
    s.ptr_lt_two_pow_ptrW, fun e he => ?_, fun i hi => fit (h.bounds.stack i hi).le,
    h.resolver.stk_length_le_scan.trans (h.bounds.scan.trans hlen)⟩
  obtain ⟨hkey, htarget⟩ := h.bounds.table e he
  exact ⟨fit hkey.le, fit (htarget.trans hkey).le⟩

end Sys2Proof.Machine
end

section
/-! PROOFS. What every step keeps (10_state.md): the canonical form of the tape, the machine's invariant, the Program in a run,
the tape and the pointer, the streams, RESULT and DONE; and what the ports show. The inversions of a step, of its engine part
and of the resolver's step are put together once, in `Transition`; what an instruction leaves alone is said once, by
`exec_keepsAllBut`. -/

namespace Sys2Proof.Machine

variable {s t u : State}

/-! ### Canonical maps and tapes -/

theorem mapSorted_iff_pairwise {α : Type} (m : List (Nat × α)) :
    mapSorted m = true ↔ m.Pairwise (fun c d => c.1 < d.1) := by
  induction m with
  | nil => simp [mapSorted]
  | cons c m ih => rw [mapSorted_cons, List.pairwise_cons, ih]

theorem mem_iff_mapGet {α : Type} {m : List (Nat × α)} (h : mapSorted m = true) (c : Nat × α) :
    c ∈ m ↔ mapGet m c.1 = some c.2 :=
  ⟨mapGet_of_mem h, mem_of_mapGet⟩

/-- A map with rising keys is determined by what it reads: both lists hold the same pairs, in the same order. -/
theorem mapSorted_ext {α : Type} {m n : List (Nat × α)} (hm : mapSorted m = true) (hn : mapSorted n = true)
    (h : ∀ a, mapGet m a = mapGet n a) : m = n := by
  have : Std.Antisymm fun c d : Nat × α => c.1 < d.1 := ⟨fun _ _ h h' => absurd h' h.asymm⟩
  have : Std.Irrefl fun c d : Nat × α => c.1 < d.1 := ⟨fun c => Nat.lt_irrefl c.1⟩
  refine ((mapSorted_iff_pairwise m).1 hm).eq_of_mem_iff ((mapSorted_iff_pairwise n).1 hn) fun c => ?_
  rw [mem_iff_mapGet hm, mem_iff_mapGet hn, h]

/-- A canonical tape lists exactly the cells that are not 0. -/
theorem Memory.mapGet_of_wf {m : List Host.Cell} (h : Memory.wf m = true) (a : Nat) :
    mapGet m a = if tapeGet m a = 0#8 then none else some (tapeGet m a) := by
  unfold tapeGet
  cases hg : mapGet m a with
  | none => simp
  | some v =>
    have hv : v ≠ 0#8 := (((Memory.wf_iff m).1 h).2 _ (mem_of_mapGet hg)).2
    simp [hv]

/-- Settles O39: a canonical tape is a map with rising keys whose entries its reads determine. -/
theorem canonicalTapesReadingAlikeAreEqual : Obligations.CanonicalTapesReadingAlikeAreEqual := by
  intro m n hm hn h
  refine mapSorted_ext ((Memory.wf_iff m).1 hm).1 ((Memory.wf_iff n).1 hn).1 fun a => ?_
  rw [Memory.mapGet_of_wf hm, Memory.mapGet_of_wf hn, h]

/-! ### What an instruction writes -/

/-- The parts of the state an instruction may write, whether the host makes it wait or not (R140 to R180). -/
def partsWritten : Instr → List Part
  | .right => [.ptr]
  | .left => [.ptr]
  | .inc => [.cell]
  | .dec => [.cell]
  | .out => [.outOffer, .accept, .log]
  | .inp => [.cell, .inReq, .input, .log]
  | .loopOpen => []
  | .loopClose => [.pc]
  | .nop _ => []

theorem cell_mem_partsWritten {i : Instr} (h : .cell ∈ partsWritten i) : i = .inc ∨ i = .dec ∨ i = .inp := by
  cases i <;> simp_all [partsWritten]

theorem ptr_mem_partsWritten {i : Instr} (h : .ptr ∈ partsWritten i) : i = .right ∨ i = .left := by
  cases i <;> simp_all [partsWritten]

theorem accept_mem_partsWritten {i : Instr} (h : .accept ∈ partsWritten i) : i = .out := by
  cases i <;> simp_all [partsWritten]

theorem input_mem_partsWritten {i : Instr} (h : .input ∈ partsWritten i) : i = .inp := by
  cases i <;> simp_all [partsWritten]

theorem inReq_mem_partsWritten {i : Instr} (h : .inReq ∈ partsWritten i) : i = .inp := by
  cases i <;> simp_all [partsWritten]

theorem outOffer_mem_partsWritten {i : Instr} (h : .outOffer ∈ partsWritten i) : i = .out := by
  cases i <;> simp_all [partsWritten]

/-- R57: a write at the pointer leaves what every other index reads. -/
theorem tapeGet_tapeSet_or (m : List Host.Cell) (p : Nat) (v : Byte) (a : Nat) :
    a = p ∨ tapeGet (tapeSet m p v) a = tapeGet m a := by
  rw [tapeGet_tapeSet]
  by_cases h : a = p <;> simp [h]

/-- The frame of every instruction: it changes no part but those it writes. -/
theorem exec_keepsAllBut {i : Instr} (h : exec i s = .next t) : KeepsAllBut (partsWritten i) s t := by
  obtain ⟨rfl, rfl⟩ | ⟨rfl, rfl⟩ | ⟨rfl, rfl⟩ | ⟨rfl, rfl⟩ | ⟨rfl, -, rfl⟩ | ⟨rfl, -, rfl⟩ | ⟨rfl, a, -, rfl⟩ |
    ⟨rfl, -, rfl⟩ | ⟨rfl, -, o, -, rfl⟩ | ⟨-, rfl⟩ := exec_cases h <;>
  constructor <;> simp [partsWritten, tapeGet_tapeSet_or]

/-- An instruction writes the tape at the pointer only, so the canonical form stays (R22, R57). -/
theorem exec_tape_wf {i : Instr} (h : exec i s = .next t) (hw : Memory.wf s.tape = true) : Memory.wf t.tape = true := by
  have hset (v : Byte) : Memory.wf (tapeSet s.tape s.ptr.val v) = true := Memory.wf_tapeSet v s.ptr.isLt hw
  obtain ⟨-, rfl⟩ | ⟨-, rfl⟩ | ⟨-, rfl⟩ | ⟨-, rfl⟩ | ⟨-, -, rfl⟩ | ⟨-, -, rfl⟩ | ⟨-, a, -, rfl⟩ |
    ⟨-, -, rfl⟩ | ⟨-, -, o, -, rfl⟩ | ⟨-, rfl⟩ := exec_cases h <;> simp [hw, hset]

/-! ### The events of an instruction -/

/-- Is the event one of the input or the output port (R197, R198)? -/
def Event.atStreamPort : Event → Bool
  | .inAnswer _ => true
  | .outAccept _ => true
  | .inRequest => true
  | .outUnit _ => true
  | .construct => false
  | .execute _ => false
  | .reset => false
  | .completed _ => false
  | .resetDone => false

theorem offerEvents_atStreamPort (s : State) : (offerEvents s).all Event.atStreamPort = true := by
  unfold offerEvents; split <;> rfl

theorem requestEvents_atStreamPort (s : State) : (requestEvents s).all Event.atStreamPort = true := by
  unfold requestEvents; split <;> rfl

/-- An instruction adds events of the stream ports only. -/
theorem exec_newEvents {i : Instr} (h : exec i s = .next t) :
    (t.log.drop s.log.length).all Event.atStreamPort = true := by
  obtain ⟨-, rfl⟩ | ⟨-, rfl⟩ | ⟨-, rfl⟩ | ⟨-, rfl⟩ | ⟨-, -, rfl⟩ | ⟨-, -, rfl⟩ | ⟨-, a, -, rfl⟩ |
    ⟨-, -, rfl⟩ | ⟨-, -, o, -, rfl⟩ | ⟨-, rfl⟩ := exec_cases h <;>
  simp [List.append_assoc, offerEvents_atStreamPort, requestEvents_atStreamPort, Event.atStreamPort, -List.all_eq_true]

/-- Only `.` delivers (R162), and only `,` takes from the input stream (R161). -/
theorem exec_streams {i : Instr} (h : exec i s = .next t) :
    (t.outHistory = s.outHistory ∨ i = .out) ∧ (t.inPosition = s.inPosition ∨ i = .inp) := by
  obtain ⟨-, rfl⟩ | ⟨-, rfl⟩ | ⟨-, rfl⟩ | ⟨-, rfl⟩ | ⟨rfl, -, rfl⟩ | ⟨rfl, -, rfl⟩ | ⟨rfl, a, -, rfl⟩ |
    ⟨rfl, -, rfl⟩ | ⟨-, -, o, -, rfl⟩ | ⟨-, rfl⟩ := exec_cases h <;>
  simp [State.outHistory, State.inPosition, Event.delivered, Event.taken]

/-! ### What a step can do -/

/-- The transitions of the machine (R120): hardware reset, the moves of the host that the engine takes in IDLE, and the
engine's own. -/
inductive Transition (s : State) : State → Prop where
  | hardwareReset (rest : Feed HostMove) (hm : s.hostMove = (.hardwareReset, rest)) : Transition s (s.hardwareReset rest)
  | progWrite (a : Nat) (c : Code) (rest : Feed HostMove) (hm : s.hostMove = (.progWrite a c, rest)) (hp : s.phase = .idle)
      (ha : isProgAddress s.progMax a = true) : Transition s { s.tick rest with prog := mapInsert s.prog a c }
  | execute (n : Nat) (rest : Feed HostMove) (src : List Code) (hm : s.hostMove = (.execute n, rest))
      (hp : s.phase = .idle) (hf : fitsProgMax s.progMax n = true) (hw : s.writtenBelow n = true)
      (hs : src = (List.range n).map s.progAt) :
      Transition s { s.tick rest with
        progLen := n, pc := 0, jt := [], stk := [], scan := 0, phase := .resolve, log := s.log ++ [.execute src] }
  | reset (rest : Feed HostMove) (hm : s.hostMove = (.reset, rest)) (hp : s.phase = .idle) :
      Transition s (s.tick rest).resetCommand
  | rest (hm : s.hostMove.1 = .pause) (hp : s.phase = .idle) : Transition s (s.tick s.movesWhileBusy)
  | scanFails (e : StructuralError) (hr : s.rstAsserted = false) (hp : s.phase = .resolve) (hl : s.scan < s.progLen)
      (hc : scanChar (s.progAt s.scan) s.scan s.stk s.jt = .error e) : Transition s ((s.tick s.movesWhileBusy).raise e)
  | scans (stk : List Nat) (jt : List (Nat × Nat)) (hr : s.rstAsserted = false) (hp : s.phase = .resolve)
      (hl : s.scan < s.progLen) (hc : scanChar (s.progAt s.scan) s.scan s.stk s.jt = .ok (stk, jt)) :
      Transition s { s.tick s.movesWhileBusy with stk := stk, jt := jt, scan := s.scan + 1 }
  | startRun (hr : s.rstAsserted = false) (hp : s.phase = .resolve) (hl : s.progLen ≤ s.scan) (hs : s.stk = []) :
      Transition s (s.tick s.movesWhileBusy).startRun
  | openLeft (o : Nat) (below : List Nat) (hr : s.rstAsserted = false) (hp : s.phase = .resolve) (hl : s.progLen ≤ s.scan)
      (hs : s.stk = o :: below) : Transition s ((s.tick s.movesWhileBusy).raise (.unmatchedOpen o))
  | dispatch (u : State) (hr : s.rstAsserted = false) (hp : s.phase = .run) (hl : s.pc < s.progLen)
      (hu : exec s.fetched (s.tick s.movesWhileBusy) = .next u) :
      Transition s { u with pc := if u.waiting then u.pc else u.pc + 1 }
  | endRun (hr : s.rstAsserted = false) (hp : s.phase = .run) (he : s.pc = s.progLen) :
      Transition s (s.tick s.movesWhileBusy).endRun

theorem State.afterDispatch_pc (s : State) : s.afterDispatch.pc = if s.waiting then s.pc else s.pc + 1 := by
  unfold State.afterDispatch; split <;> rfl

theorem transition_of_resolveStep (hr : s.rstAsserted = false) (hp : s.phase = .resolve) :
    Transition s (s.tick s.movesWhileBusy).resolveStep := by
  obtain ⟨hl, e, hc, he⟩ | ⟨hl, stk, jt, hc, he⟩ | ⟨hl, hs, he⟩ | ⟨hl, o, below, hs, he⟩ :=
    (s.tick s.movesWhileBusy).resolveStep_cases <;> rw [he]
  · exact .scanFails e hr hp hl hc
  · exact .scans stk jt hr hp hl hc
  · exact .startRun hr hp hl hs
  · exact .openLeft o below hr hp hl hs

/-- Every step that answers a next state is one of the transitions. -/
theorem step_transition (h : step s = .next t) : Transition s t := by
  obtain ⟨rest, hm, rfl⟩ | ⟨a, c, rest, hm, hp, ha, rfl⟩ | ⟨n, rest, hm, hp, hf, hw, u, rfl, rfl⟩ | ⟨rest, hm, hp, rfl⟩ |
    ⟨hr, hidle, hrun⟩ := step_cases h
  · exact .hardwareReset rest hm
  · exact .progWrite a c rest hm hp ha
  · exact .execute n rest _ hm hp hf hw rfl
  · exact .reset rest hm hp
  · obtain ⟨hp, rfl⟩ | ⟨hp, rfl⟩ | ⟨hp, hl, u, hu, rfl⟩ | ⟨hp, he, rfl⟩ := State.runEngine_cases hrun
    · exact .rest (hidle hp) hp
    · exact transition_of_resolveStep hr hp
    · rw [State.afterDispatch_eq, State.afterDispatch_pc]
      exact .dispatch u hr hp hl hu
    · exact .endRun hr hp he

theorem State.rstAsserted_of_hardwareReset {rest : Feed HostMove} (h : s.hostMove = (.hardwareReset, rest)) :
    s.rstAsserted = true := by
  simp [State.rstAsserted, h, HostMove.isHardwareReset]

/-! ### Frames of a step: tape, pointer and Program -/

/-- Settles O38: of the steps of a run only a dispatch writes the tape, and at the pointer; both resets clear it. -/
theorem stepKeepsTheTapeCanonical : Obligations.StepKeepsTheTapeCanonical := by
  intro s t hw h
  cases step_transition h with
  | hardwareReset => exact Memory.wf_nil
  | reset => exact Memory.wf_nil
  | dispatch u _ _ _ hu => exact exec_tape_wf (t := u) hu hw
  | _ => exact hw

/-- Settles O46: hardware reset apart, PROG and PROG_LEN are written in IDLE only, and in a run the table by the resolver
only. -/
theorem programIsFixedDuringARun : Obligations.ProgramIsFixedDuringARun := by
  intro s t h hbusy hr
  have keep (hprog : t.prog = s.prog) (hlen : t.progLen = s.progLen) (hjt : s.phase = .run → t.jt = s.jt) :
      t.prog = s.prog ∧ t.progLen = s.progLen ∧ t.source = s.source ∧ (s.phase = .run → t.jt = s.jt) :=
    ⟨hprog, hlen, State.source_congr hprog hlen, hjt⟩
  have notRun (hp : s.phase = .resolve) (hq : s.phase = .run) : t.jt = s.jt := by simp [hp] at hq
  cases step_transition h with
  | hardwareReset rest hm => simp [State.rstAsserted_of_hardwareReset hm] at hr
  | progWrite _ _ _ _ hp => exact absurd hp hbusy
  | execute _ _ _ _ hp => exact absurd hp hbusy
  | reset _ _ hp => exact absurd hp hbusy
  | rest _ hp => exact absurd hp hbusy
  | scanFails _ _ hp => exact keep rfl rfl (notRun hp)
  | scans _ _ _ hp => exact keep rfl rfl (notRun hp)
  | openLeft _ _ _ hp => exact keep rfl rfl (notRun hp)
  | startRun => exact keep rfl rfl fun _ => rfl
  | dispatch u _ _ _ hu =>
    have hk := exec_keepsAllBut hu
    exact keep hk.prog hk.progLen fun _ => hk.jt
  | endRun => exact keep rfl rfl fun _ => rfl

/-- Settles O47: the resets apart, only a dispatch writes tape or pointer. -/
theorem tapeAndPointerPersistOutsideRun : Obligations.TapeAndPointerPersistOutsideRun := by
  intro s t h hrun hr hreset
  cases step_transition h with
  | hardwareReset rest hm => simp [State.rstAsserted_of_hardwareReset hm] at hr
  | reset rest hm hp => exact absurd hp (hreset (by simp [hm]))
  | dispatch u _ hp => exact absurd hp hrun
  | _ => exact ⟨rfl, rfl⟩

/-- Settles O48: in RUN only a dispatch changes what the tape reads, as its instruction's frame allows. -/
theorem runWritesOnlyTheCurrentCell : Obligations.RunWritesOnlyTheCurrentCell := by
  intro s t h hp hr a hne
  cases step_transition h with
  | hardwareReset rest hm => simp [State.rstAsserted_of_hardwareReset hm] at hr
  | reset _ _ hidle => simp [hidle] at hp
  | dispatch u _ _ hl hu =>
    obtain ⟨hcell, ha⟩ | hsame := (exec_keepsAllBut hu).tape a
    · exact ⟨ha, hl, cell_mem_partsWritten hcell⟩
    · exact absurd hsame hne
  | _ => exact absurd rfl hne

/-- Settles O49: the resets apart, only a dispatch moves the pointer, and only of an instruction that writes it. -/
theorem pointerMovesOnlyByItsInstructions : Obligations.PointerMovesOnlyByItsInstructions := by
  intro s t h hne
  cases step_transition h with
  | hardwareReset rest hm => exact .inl (State.rstAsserted_of_hardwareReset hm)
  | reset rest hm hp => exact .inr (.inl ⟨hp, by simp [hm]⟩)
  | dispatch u _ hp hl hu =>
    have hptr := (exec_keepsAllBut hu).ptr.resolve_right hne
    exact .inr (.inr ⟨hp, hl, ptr_mem_partsWritten hptr⟩)
  | _ => exact absurd rfl hne

/-! ### Frames of a step: streams, RESULT and DONE -/

/-- R36, R59, R253: every transition but a dispatch leaves the streams alone, the resets among them. -/
theorem Transition.streams_eq_or_dispatch (h : Transition s t) :
    (t.outHistory = s.outHistory ∧ t.accept = s.accept ∧ t.input = s.input ∧ t.inPosition = s.inPosition) ∨
    (s.phase = .run ∧ s.pc < s.progLen ∧ ∃ u pc, exec s.fetched (s.tick s.movesWhileBusy) = .next u ∧
      t = { u with pc := pc }) := by
  cases h with
  | dispatch u _ hp hl hu => exact .inr ⟨hp, hl, u, _, hu, rfl⟩
  | _ => exact .inl (by simp [State.outHistory, State.inPosition, Event.delivered, Event.taken])

/-- Settles O51: only a dispatch moves a stream, and only of the stream's own instruction. -/
theorem streamsMoveOnlyByTheirInstructions : Obligations.StreamsMoveOnlyByTheirInstructions := by
  intro s t h
  obtain ⟨hout, haccept, hinput, hpos⟩ | ⟨hp, hl, u, pc, hu, rfl⟩ := (step_transition h).streams_eq_or_dispatch
  · exact ⟨fun hne => absurd hout hne, fun hne => absurd haccept hne, fun hne => absurd hinput hne,
      fun hne => absurd hpos hne⟩
  · have hk := exec_keepsAllBut hu
    obtain ⟨hout, hpos⟩ := exec_streams hu
    exact ⟨fun hne => ⟨hp, hl, hout.resolve_left hne⟩,
      fun hne => ⟨hp, hl, accept_mem_partsWritten (hk.accept.resolve_right hne)⟩,
      fun hne => ⟨hp, hl, input_mem_partsWritten (hk.input.resolve_right hne)⟩,
      fun hne => ⟨hp, hl, hpos.resolve_left hne⟩⟩

/-- Settles O52: RESULT is written by the resets and by `State.complete`, which reports it. -/
theorem resultIsStableBetweenCompletions : Obligations.ResultIsStableBetweenCompletions := by
  intro s t h hne
  cases step_transition h with
  | hardwareReset rest hm => exact .inl (State.rstAsserted_of_hardwareReset hm)
  | reset rest hm hp => exact .inr (.inl ⟨hp, by simp [hm]⟩)
  | scanFails => exact .inr (.inr rfl)
  | openLeft => exact .inr (.inr rfl)
  | endRun => exact .inr (.inr rfl)
  | dispatch u _ _ _ hu => exact absurd (exec_keepsAllBut hu).result hne
  | _ => exact absurd rfl hne

/-- What O53 says of a step's events: a run is completed, or a RESET is. -/
def State.CompletesInto (s t : State) : Prop :=
  (∃ r, t.log = s.log ++ [.completed r]) ∨ t.log = s.log ++ [.reset, .resetDone]

/-- An instruction completes neither a run nor a RESET: its events are those of the stream ports. -/
theorem exec_not_completesInto {i : Instr} (h : exec i s = .next t) : ¬ s.CompletesInto t := by
  have hnew := exec_newEvents h
  rintro (⟨r, hlog⟩ | hlog) <;> simp [hlog, Event.atStreamPort] at hnew

/-- Settles O53: the pulse is set by `State.complete` and by RESET, each with its completion event, and by nothing else. -/
theorem donePulsesExactlyAtCompletions : Obligations.DonePulsesExactlyAtCompletions := by
  intro s t h
  cases step_transition h with
  | dispatch u _ _ _ hu =>
    have hdone : u.done = false := (exec_keepsAllBut hu).done
    have hnot : ¬ (s.tick s.movesWhileBusy).CompletesInto u := exec_not_completesInto hu
    exact iff_of_false (by simp [hdone]) hnot
  | reset => exact iff_of_true rfl (.inr rfl)
  | scanFails => exact iff_of_true rfl (.inl ⟨_, rfl⟩)
  | openLeft => exact iff_of_true rfl (.inl ⟨_, rfl⟩)
  | endRun => exact iff_of_true rfl (.inl ⟨_, rfl⟩)
  | _ => simp

/-! ### The scan so far -/

@[simp] theorem fitsProgMax_zero (progMax : Option Nat) : fitsProgMax progMax 0 = true := by
  cases progMax <;> simp [fitsProgMax]

theorem fitsProgMax_mono {progMax : Option Nat} {m n : Nat} (h : fitsProgMax progMax n = true) (hmn : m ≤ n) :
    fitsProgMax progMax m = true := by
  cases progMax with
  | none => rfl
  | some k => simp only [fitsProgMax_some] at h ⊢; omega

/-- The scan of a character fails only at a `]` with nothing on the stack (R102). -/
theorem scanChar_error {c : Code} {i : Nat} {stk : List Nat} {jt : List (Nat × Nat)} {e : StructuralError}
    (h : scanChar c i stk jt = .error e) : e = .unmatchedClose i := by
  cases hd : decodeChar c with
  | loopClose => cases stk <;> simp_all [scanChar]
  | _ => simp [scanChar, hd] at h

theorem scanFrom_snoc {cs : List Code} {c : Code} {i : Nat} {stk stk' : List Nat} {jt jt' : List (Nat × Nat)}
    {r : List Nat × List (Nat × Nat)} (h : scanFrom cs i stk jt = .ok (stk', jt'))
    (hc : scanChar c (i + cs.length) stk' jt' = .ok r) : scanFrom (cs ++ [c]) i stk jt = .ok r := by
  induction cs generalizing i stk jt with
  | nil =>
    obtain ⟨rfl, rfl⟩ : stk = stk' ∧ jt = jt' := by simpa [scanFrom] using h
    simp_all [scanFrom]
  | cons d cs ih =>
    obtain ⟨stk₁, jt₁, hd, hcs⟩ := scanFrom_cons_ok h
    have hi : i + 1 + cs.length = i + (d :: cs).length := by simp only [List.length_cons]; omega
    simp [scanFrom, hd, ih hcs (hi ▸ hc)]

/-- The scan stacks indices of characters it has read (R34). -/
theorem scanFrom_stack_lt {cs : List Code} {i : Nat} {stk stk' : List Nat} {jt jt' : List (Nat × Nat)}
    (h : scanFrom cs i stk jt = .ok (stk', jt')) (hstk : ∀ x ∈ stk, x < i) : ∀ x ∈ stk', x < i + cs.length := by
  induction cs generalizing i stk jt with
  | nil =>
    obtain ⟨rfl, -⟩ : stk = stk' ∧ jt = jt' := by simpa [scanFrom] using h
    simpa using hstk
  | cons c cs ih =>
    obtain ⟨stk₁, jt₁, hc, hcs⟩ := scanFrom_cons_ok h
    have hstk₁ : ∀ x ∈ stk₁, x < i + 1 := by
      obtain ⟨-, rfl, -⟩ | ⟨-, o, rfl, -⟩ | ⟨-, -, rfl, -⟩ := scanChar_ok_cases hc <;> intro x hx
      · rcases List.mem_cons.1 hx with rfl | hx
        · exact Nat.lt_succ_self _
        · exact (hstk x hx).trans (Nat.lt_succ_self i)
      · exact (hstk x (List.mem_cons_of_mem o hx)).trans (Nat.lt_succ_self i)
      · exact (hstk x hx).trans (Nat.lt_succ_self i)
    intro x hx
    have := ih hcs hstk₁ x hx
    simp only [List.length_cons]; omega

/-- A scan that has read the whole source with nothing on the stack is a resolution (R100). -/
theorem resolve_of_scanFrom {src : List Code} {jt : List (Nat × Nat)} (h : scanFrom src 0 [] [] = .ok ([], jt)) :
    resolve src = .ok jt := by
  simp [resolve, h]

/-! ### The invariant, phase by phase -/

theorem resolverInv_idle_iff (hp : s.phase = .idle) : ResolverInv s ↔ s.stk = [] ∧ s.scan = 0 := by
  simp [ResolverInv, hp]

theorem resolverInv_resolve_iff (hp : s.phase = .resolve) :
    ResolverInv s ↔ s.pc = 0 ∧ scanFrom (s.source.take s.scan) 0 [] [] = .ok (s.stk, s.jt) := by
  simp [ResolverInv, hp]

theorem resolverInv_run_iff (hp : s.phase = .run) :
    ResolverInv s ↔ s.stk = [] ∧ s.scan = 0 ∧ resolve s.source = .ok s.jt := by
  simp [ResolverInv, hp]

theorem ResolverInv.of_idle (hp : s.phase = .idle) (h : s.stk = [] ∧ s.scan = 0) : ResolverInv s :=
  (resolverInv_idle_iff hp).2 h

theorem ResolverInv.of_resolve (hp : s.phase = .resolve)
    (h : s.pc = 0 ∧ scanFrom (s.source.take s.scan) 0 [] [] = .ok (s.stk, s.jt)) : ResolverInv s :=
  (resolverInv_resolve_iff hp).2 h

theorem ResolverInv.of_run (hp : s.phase = .run) (h : s.stk = [] ∧ s.scan = 0 ∧ resolve s.source = .ok s.jt) :
    ResolverInv s :=
  (resolverInv_run_iff hp).2 h

theorem Inv.tape_wf (h : Inv s) : Memory.wf s.tape = true := h.memories.1
theorem Inv.jt_sorted (h : Inv s) : mapSorted s.jt = true := h.memories.2.1
theorem Inv.prog_sorted (h : Inv s) : mapSorted s.prog = true := h.memories.2.2

/-- In RESOLVE every stacked index is of a character already scanned. -/
theorem Inv.stk_lt_scan (h : Inv s) (hp : s.phase = .resolve) : ∀ x ∈ s.stk, x < s.scan := by
  have hlen : (s.source.take s.scan).length = s.scan := by simp [h.bounds.scan]
  simpa [hlen] using scanFrom_stack_lt (h.resolver.scanFrom_eq hp) (by simp)

theorem PortsInv.of_silent (hi : s.inReq = false) (ho : s.outOffer = none) : PortsInv s :=
  ⟨fun hr => by simp [hi] at hr, fun v hv => by simp [ho] at hv⟩

theorem PortsInv.inReq_eq_false (h : PortsInv s) (hn : ¬ (s.phase = .run ∧ s.pc < s.progLen ∧ s.fetched = .inp)) :
    s.inReq = false :=
  Bool.eq_false_iff.2 fun hr => by
    obtain ⟨hp, hl, hf, -⟩ := h.request hr
    exact hn ⟨hp, hl, hf⟩

theorem PortsInv.outOffer_eq_none (h : PortsInv s) (hn : ¬ (s.phase = .run ∧ s.pc < s.progLen ∧ s.fetched = .out)) :
    s.outOffer = none :=
  Option.eq_none_iff_forall_ne_some.2 fun v hv => by
    obtain ⟨hp, hl, hf, -⟩ := h.offer v hv
    exact hn ⟨hp, hl, hf⟩

/-- Nothing stands at a port where no instruction is being dispatched, nor after a move that leaves the ports alone. -/
theorem PortsInv.of_unchanged (h : PortsInv s) (hn : ¬ (s.phase = .run ∧ s.pc < s.progLen)) (hi : t.inReq = s.inReq)
    (ho : t.outOffer = s.outOffer) : PortsInv t :=
  .of_silent (hi.trans (h.inReq_eq_false fun ⟨hp, hl, _⟩ => hn ⟨hp, hl⟩))
    (ho.trans (h.outOffer_eq_none fun ⟨hp, hl, _⟩ => hn ⟨hp, hl⟩))

/-! ### Every transition keeps the invariant -/

theorem Inv.tick (h : Inv s) (rest : Feed HostMove) : Inv (s.tick rest) where
  memories := h.memories
  bounds := { h.bounds with }
  resolver := h.resolver
  ports := { h.ports with }

theorem State.writtenBelow_zero (s : State) : s.writtenBelow 0 = true := rfl

/-- R193: one more location written leaves every location that is written so. -/
theorem writtenBelow_progWrite {n : Nat} (a : Nat) (c : Code) (h : s.writtenBelow n = true) :
    ({ s with prog := mapInsert s.prog a c } : State).writtenBelow n = true := by
  simp only [State.writtenBelow, List.all_eq_true, mapGet_mapInsert] at h ⊢
  intro i hi
  split
  · rfl
  · exact h i hi

theorem Inv.hardwareReset (s : State) (rest : Feed HostMove) : Inv (s.hardwareReset rest) where
  memories := ⟨rfl, rfl, rfl⟩
  bounds := by constructor <;> simp [State.writtenBelow_zero]
  resolver := ⟨rfl, rfl⟩
  ports := .of_silent rfl rfl

theorem Inv.progWrite {a : Nat} {c : Code} (h : Inv s) (hp : s.phase = .idle) (ha : isProgAddress s.progMax a = true) :
    Inv { s with prog := mapInsert s.prog a c } := by
  have haddresses (b d) (hb : mapGet (mapInsert s.prog a c) b = some d) : isProgAddress s.progMax b = true := by
    rw [mapGet_mapInsert] at hb
    split at hb
    · next hab => rw [hab]; exact ha
    · exact h.bounds.addresses b d hb
  exact {
    memories := ⟨h.tape_wf, h.jt_sorted, mapSorted_mapInsert a c h.prog_sorted⟩
    bounds := { h.bounds with written := writtenBelow_progWrite a c h.bounds.written, addresses := haddresses }
    resolver := .of_idle hp ((resolverInv_idle_iff hp).1 h.resolver)
    ports := h.ports.of_unchanged (by simp [hp]) rfl rfl }

theorem Inv.execute {n : Nat} (es : List Event) (h : Inv s) (hp : s.phase = .idle)
    (hf : fitsProgMax s.progMax n = true) (hw : s.writtenBelow n = true) :
    Inv { s with progLen := n, pc := 0, jt := [], stk := [], scan := 0, phase := .resolve, log := s.log ++ es } where
  memories := ⟨h.tape_wf, rfl, h.prog_sorted⟩
  bounds := { h.bounds with
    pc := n.zero_le, scan := n.zero_le, fits := hf, written := hw, table := by simp, stack := by simp }
  resolver := ⟨rfl, rfl⟩
  ports := h.ports.of_unchanged (by simp [hp]) rfl rfl

theorem Inv.resetCommand (h : Inv s) (hp : s.phase = .idle) : Inv s.resetCommand where
  memories := ⟨rfl, rfl, h.prog_sorted⟩
  bounds := { h.bounds with
    pc := Nat.zero_le _, scan := Nat.zero_le _, resultFits := fitsProgMax_zero _, table := by simp, stack := by simp }
  resolver := .of_idle hp ⟨rfl, rfl⟩
  ports := h.ports.of_unchanged (by simp [hp]) rfl rfl

/-- R122: an error names an index of the Program. -/
theorem Inv.raise {e : StructuralError} (h : Inv s) (hp : s.phase = .resolve) (he : e.index < s.progLen) :
    Inv (s.raise e) where
  memories := ⟨h.tape_wf, rfl, h.prog_sorted⟩
  bounds := { h.bounds with
    pc := Nat.zero_le _, scan := Nat.zero_le _, resultFits := fitsProgMax_mono h.bounds.fits he.le,
    table := by simp, stack := by simp }
  resolver := ⟨rfl, rfl⟩
  ports := h.ports.of_unchanged (by simp [hp]) rfl rfl

/-- R101, R109: one more character scanned. A new entry is of the `]` just read and of a `[` read before. -/
theorem Inv.scans {stk : List Nat} {jt : List (Nat × Nat)} (h : Inv s) (hp : s.phase = .resolve) (hl : s.scan < s.progLen)
    (hc : scanChar (s.progAt s.scan) s.scan s.stk s.jt = .ok (stk, jt)) :
    Inv { s with stk := stk, jt := jt, scan := s.scan + 1 } := by
  obtain ⟨hpc, hscan⟩ := (resolverInv_resolve_iff hp).1 h.resolver
  have hlen : 0 + (s.source.take s.scan).length = s.scan := by simp [hl.le]
  have hscan' : scanFrom (s.source.take (s.scan + 1)) 0 [] [] = .ok (stk, jt) := by
    rw [s.source_take_succ hl]
    exact scanFrom_snoc hscan (hlen.symm ▸ hc)
  obtain ⟨hsorted, htable, hstack⟩ : mapSorted jt = true ∧ (∀ e ∈ jt, e.1 < s.progLen ∧ e.2 < e.1) ∧
      ∀ x ∈ stk, x < s.progLen := by
    obtain ⟨-, rfl, rfl⟩ | ⟨-, o, hstk, rfl⟩ | ⟨-, -, rfl, rfl⟩ := scanChar_ok_cases hc
    · exact ⟨h.jt_sorted, h.bounds.table, List.forall_mem_cons.2 ⟨hl, h.bounds.stack⟩⟩
    · have ho : o < s.scan := h.stk_lt_scan hp o (by simp [hstk])
      refine ⟨mapSorted_mapInsert _ _ h.jt_sorted, fun e he => ?_, fun x hx => h.bounds.stack x (by simp [hstk, hx])⟩
      obtain rfl | he := mem_mapInsert he
      · exact ⟨hl, ho⟩
      · exact h.bounds.table e he
    · exact ⟨h.jt_sorted, h.bounds.table, h.bounds.stack⟩
  exact {
    memories := ⟨h.tape_wf, hsorted, h.prog_sorted⟩
    bounds := { h.bounds with scan := hl, table := htable, stack := hstack }
    resolver := .of_resolve hp ⟨hpc, hscan'⟩
    ports := h.ports.of_unchanged (by simp [hp]) rfl rfl }

/-- R123: at the end of the scan the table is the Program's. -/
theorem Inv.startRun (h : Inv s) (hp : s.phase = .resolve) (hl : s.progLen ≤ s.scan) (hs : s.stk = []) :
    Inv s.startRun := by
  have hall : s.source.take s.scan = s.source := List.take_of_length_le (by simpa using hl)
  have hscan : scanFrom s.source 0 [] [] = .ok ([], s.jt) := by
    simpa [hall, hs] using h.resolver.scanFrom_eq hp
  exact {
    memories := h.memories
    bounds := { h.bounds with scan := Nat.zero_le _, stack := by simp }
    resolver := ⟨rfl, rfl, resolve_of_scanFrom hscan⟩
    ports := h.ports.of_unchanged (by simp [hp]) rfl rfl }

theorem Inv.endRun (h : Inv s) (hp : s.phase = .run) (he : s.pc = s.progLen) : Inv s.endRun := by
  obtain ⟨hstk, hscan, -⟩ := (resolverInv_run_iff hp).1 h.resolver
  exact {
    memories := h.memories
    bounds := { h.bounds with resultFits := fitsProgMax_zero _ }
    resolver := ⟨hstk, hscan⟩
    ports := h.ports.of_unchanged (fun ⟨_, hl⟩ => hl.ne he) rfl rfl }

/-! ### A dispatch keeps the invariant -/

/-- An instruction leaves PC or writes the target of its own table entry (R171). -/
theorem exec_pc {i : Instr} (hu : exec i s = .next u) : u.pc = s.pc ∨ mapGet s.jt s.pc = some u.pc := by
  obtain ⟨-, rfl⟩ | ⟨-, rfl⟩ | ⟨-, rfl⟩ | ⟨-, rfl⟩ | ⟨-, -, rfl⟩ | ⟨-, -, rfl⟩ | ⟨-, a, -, rfl⟩ |
    ⟨-, -, rfl⟩ | ⟨-, -, o, hj, rfl⟩ | ⟨-, rfl⟩ := exec_cases hu <;> simp [*]

/-- A table entry's target lies before its key, so an instruction moves PC back or not at all. -/
theorem BoundsInv.exec_pc_le {i : Instr} (h : BoundsInv s) (hu : exec i s = .next u) : u.pc ≤ s.pc := by
  obtain hpc | hj := exec_pc hu
  · exact hpc.le
  · exact (h.table _ (mem_of_mapGet hj)).2.le

/-- Whatever writes none of the memories of positions keeps the bounds, wherever PC goes inside the Program. -/
theorem KeepsAllBut.boundsInv {parts : List Part} {pc : Nat} (hk : KeepsAllBut parts s u) (h : BoundsInv s)
    (hpc : pc ≤ s.progLen) : BoundsInv { u with pc := pc } := by
  obtain ⟨tape, ptr, upc, jt, prog, progLen, phase, result, done, stk, scan, inReq, outOffer, progMax, moves, input, accept,
    log⟩ := u
  obtain ⟨-, -, -, -, -, -, -, -, rfl, rfl, rfl, -, rfl, -, rfl, rfl, rfl, -⟩ := hk
  exact { h with pc := hpc }

/-- Where an instruction waits, PC stays at it (R132). -/
theorem PortsInv.of_waiting (h : PortsInv s) (hw : s.waiting = true) :
    PortsInv { s with pc := if s.waiting then s.pc else s.pc + 1 } := by
  rw [if_pos hw]; exact h

/-- R132, R197, R198: after a dispatch a request or an offer stands only at an instruction that waits. -/
theorem PortsInv.dispatch (h : PortsInv s) (hp : s.phase = .run) (hl : s.pc < s.progLen)
    (hu : exec s.fetched s = .next u) : PortsInv { u with pc := if u.waiting then u.pc else u.pc + 1 } := by
  have hin (hf : s.fetched ≠ .inp) : s.inReq = false := h.inReq_eq_false fun ⟨_, _, hd⟩ => hf hd
  have hout (hf : s.fetched ≠ .out) : s.outOffer = none := h.outOffer_eq_none fun ⟨_, _, hd⟩ => hf hd
  by_cases hfo : s.fetched = .out
  · have hi : s.inReq = false := hin (by simp [hfo])
    rw [hfo] at hu
    cases ha : s.hostAccept.1 with
    | true =>
      rw [exec_out_delivers ha] at hu; cases hu
      exact .of_silent hi rfl
    | false =>
      rw [exec_out_waits ha] at hu; cases hu
      refine .of_waiting ⟨fun hr => ?_, fun v hv => ⟨hp, hl, hfo, (Option.some.inj hv).symm⟩⟩ (by simp [State.waiting])
      simp [hi] at hr
  by_cases hfi : s.fetched = .inp
  · have ho : s.outOffer = none := hout (by simp [hfi])
    rw [hfi] at hu
    cases ha : s.hostAnswer.1 with
    | some a =>
      rw [exec_inp_answered ha] at hu; cases hu
      exact .of_silent rfl ho
    | none =>
      rw [exec_inp_waits ha] at hu; cases hu
      refine .of_waiting ⟨fun _ => ⟨hp, hl, hfi, ho⟩, fun v hv => ?_⟩ (by simp [State.waiting])
      simp [ho] at hv
  · have hk := exec_keepsAllBut hu
    exact .of_silent ((hk.inReq.resolve_left fun hm => hfi (inReq_mem_partsWritten hm)).trans (hin hfi))
      ((hk.outOffer.resolve_left fun hm => hfo (outOffer_mem_partsWritten hm)).trans (hout hfo))

theorem Inv.dispatch (h : Inv s) (hp : s.phase = .run) (hl : s.pc < s.progLen) (hu : exec s.fetched s = .next u) :
    Inv { u with pc := if u.waiting then u.pc else u.pc + 1 } := by
  have hk := exec_keepsAllBut hu
  obtain ⟨hstk, hscan, htable⟩ := (resolverInv_run_iff hp).1 h.resolver
  have hpc : (if u.waiting then u.pc else u.pc + 1) ≤ s.progLen := by
    have := h.bounds.exec_pc_le hu
    split <;> omega
  have hsource : u.source = s.source := State.source_congr hk.prog hk.progLen
  exact {
    memories := ⟨exec_tape_wf (t := u) hu h.tape_wf, hk.jt ▸ h.jt_sorted, hk.prog ▸ h.prog_sorted⟩
    bounds := hk.boundsInv h.bounds hpc
    resolver := .of_run (hk.phase.trans hp)
      ⟨hk.stk.trans hstk, hk.scan.trans hscan, (congrArg resolve hsource).trans (hk.jt ▸ htable)⟩
    ports := h.ports.dispatch hp hl hu }

/-- Settles O40, transition by transition. -/
theorem stepKeepsTheInvariant : Obligations.StepKeepsTheInvariant := by
  intro s t h hst
  have hq : Inv (s.tick s.movesWhileBusy) := h.tick _
  cases step_transition hst with
  | hardwareReset rest => exact .hardwareReset s rest
  | progWrite a c rest _ hp ha => exact (h.tick rest).progWrite hp ha
  | execute n rest src _ hp hf hw => exact (h.tick rest).execute [.execute src] hp hf hw
  | reset rest _ hp => exact (h.tick rest).resetCommand hp
  | rest => exact hq
  | scanFails e _ hp hl hc => exact hq.raise hp (by rw [scanChar_error hc]; exact hl)
  | scans stk jt _ hp hl hc => exact hq.scans hp hl hc
  | startRun _ hp hl hs => exact hq.startRun hp hl hs
  | openLeft o below _ hp _ hs => exact hq.raise hp (h.bounds.stack o (by simp [hs]))
  | dispatch u _ hp hl hu => exact hq.dispatch hp hl hu
  | endRun _ hp he => exact hq.endRun hp he

theorem Inv.of_reset : Inv State.reset where
  memories := ⟨rfl, rfl, rfl⟩
  bounds := by constructor <;> simp [State.reset, State.writtenBelow_zero]
  resolver := ⟨rfl, rfl⟩
  ports := .of_silent rfl rfl

/-- Settles O37: nothing is listed, stacked or outstanding, and the history is the construction alone. -/
theorem resetMeetsTheInvariant : Obligations.ResetMeetsTheInvariant := ⟨.of_reset, rfl⟩

/-! ### What the ports show -/

theorem State.busy_iff (s : State) : s.busy = true ↔ s.phase ≠ .idle := by simp [State.busy]

theorem State.cmdReady_eq_not_busy (s : State) : s.cmdReady = !s.busy := by simp [State.cmdReady, State.busy, bne]

theorem State.cmdReady_iff (s : State) : s.cmdReady = true ↔ s.phase = .idle := by simp [State.cmdReady]

/-- The codes of R32 tell the kinds apart. -/
theorem ReportKind.code_inj {j k : ReportKind} : j.code = k.code ↔ j = k := by
  cases j <;> cases k <;> decide

/-- R199: in IDLE the observation port shows tape, pointer and PC. -/
theorem observation_of_idle (hp : s.phase = .idle) :
    (∀ a : BitVec 15, a.toNat < Config.tapeLen → s.obsCell a = some (tapeGet s.tape a.toNat)) ∧
      (∃ p, s.obsPtr = some p ∧ p.toNat = s.ptr.val) ∧ s.obsPc = some s.pc := by
  have hr : s.cmdReady = true := s.cmdReady_iff.2 hp
  exact ⟨fun a ha => by simp [State.obsCell, hr, ha],
    ⟨_, if_pos hr, (BitVec.toNat_ofNat _ _).trans (Nat.mod_eq_of_lt s.ptr_lt_two_pow_ptrW)⟩, if_pos hr⟩

theorem observation_while_busy (hp : s.phase ≠ .idle) :
    (∀ a, s.obsCell a = none) ∧ s.obsPtr = none ∧ s.obsPc = none := by
  have hr : s.cmdReady = false := by simp [State.cmdReady, hp]
  simp [State.obsCell, State.obsPtr, State.obsPc, hr]

/-- Settles O55: the pointer fits the port's PTR_W bits, and the codes tell the kinds apart. -/
theorem portsShowTheState : Obligations.PortsShowTheState :=
  ⟨State.busy_iff, State.cmdReady_eq_not_busy, ⟨rfl, rfl, rfl⟩,
    fun _ => ReportKind.code_inj (k := .ok), fun _ => ReportKind.code_inj (k := .unmatchedClose),
    fun _ => ReportKind.code_inj (k := .unmatchedOpen), fun _ => rfl, fun _ => Option.isSome_iff_exists,
    fun _ => observation_of_idle, fun _ => observation_while_busy⟩

end Sys2Proof.Machine
end

section
/-! PROOFS. Two facts about what the engine keeps of its past: in RUN the jump table answers for every closing bracket of the
Program (45_loop.md section 2), and no step takes back an event of the history (10_state.md R36). -/

namespace Sys2Proof.Machine

variable {s t : State}

/-! ### The brackets' characters -/

theorem decodeChar_eq_loopOpen_iff (c : Code) : decodeChar c = .loopOpen ↔ c = Config.codeOpen := by
  revert c; decide

theorem decodeChar_eq_loopClose_iff (c : Code) : decodeChar c = .loopClose ↔ c = Config.codeClose := by
  revert c; decide

/-! ### The table the scan builds -/

/-- What the scan knows of the brackets below index `n`: the stack and the table's targets are indices of `[`, and each `]`
has its entry (R100, R107). -/
structure BracketsScanned (src : List Code) (n : Nat) (stk : List Nat) (jt : List (Nat × Nat)) : Prop where
  stacked : ∀ o ∈ stk, src[o]? = some Config.codeOpen
  targets : ∀ i o, mapGet jt i = some o → src[o]? = some Config.codeOpen
  closers : ∀ i < n, src[i]? = some Config.codeClose → ∃ o, mapGet jt i = some o

variable {src : List Code} {n : Nat} {stk stk' : List Nat} {jt jt' : List (Nat × Nat)}

theorem BracketsScanned.start (src : List Code) : BracketsScanned src 0 [] [] :=
  ⟨by simp, by simp, by simp⟩

/-- A character that is no `]` adds no duty to the table. -/
theorem BracketsScanned.closers_succ (h : BracketsScanned src n stk jt) (hn : src[n]? ≠ some Config.codeClose) :
    ∀ i < n + 1, src[i]? = some Config.codeClose → ∃ o, mapGet jt i = some o := by
  intro i hi hc
  obtain hlt | rfl := Nat.lt_succ_iff_lt_or_eq.1 hi
  · exact h.closers i hlt hc
  · exact absurd hc hn

/-- R101: a `[` is pushed, and a `]` enters under its own index the `[` it pops. -/
theorem BracketsScanned.after_scanChar {c : Code} (h : BracketsScanned src n stk jt) (hn : src[n]? = some c)
    (hc : scanChar c n stk jt = .ok (stk', jt')) : BracketsScanned src (n + 1) stk' jt' := by
  obtain ⟨hd, rfl, rfl⟩ | ⟨-, o, rfl, rfl⟩ | ⟨-, hd, rfl, rfl⟩ := scanChar_ok_cases hc
  · obtain rfl := (decodeChar_eq_loopOpen_iff c).1 hd
    exact ⟨List.forall_mem_cons.2 ⟨hn, h.stacked⟩, h.targets, h.closers_succ (by rw [hn]; decide)⟩
  · obtain ⟨hopen, hbelow⟩ := List.forall_mem_cons.1 h.stacked
    refine ⟨hbelow, fun i p hp => ?_, fun i hi hclose => ?_⟩
    · rw [mapGet_mapInsert] at hp
      split at hp
      · cases hp; exact hopen
      · exact h.targets i p hp
    · rw [mapGet_mapInsert]
      split
      · exact ⟨o, rfl⟩
      · exact h.closers i (by omega) hclose
  · have hne : c ≠ Config.codeClose := mt (decodeChar_eq_loopClose_iff c).2 hd
    exact ⟨h.stacked, h.targets, h.closers_succ (by simpa [hn] using hne)⟩

theorem BracketsScanned.after_scanFrom {cs : List Code} (h : BracketsScanned src n stk jt) (hcs : src.drop n = cs)
    (hc : scanFrom cs n stk jt = .ok (stk', jt')) : BracketsScanned src (n + cs.length) stk' jt' := by
  induction cs generalizing n stk jt with
  | nil =>
    obtain ⟨rfl, rfl⟩ : stk = stk' ∧ jt = jt' := by simpa [scanFrom] using hc
    exact h
  | cons c cs ih =>
    obtain ⟨stk₁, jt₁, hchar, hrest⟩ := scanFrom_cons_ok hc
    have hn : src[n]? = some c := by rw [← List.head?_drop, hcs]; rfl
    have htail : src.drop (n + 1) = cs := by rw [← List.tail_drop, hcs]; rfl
    rw [List.length_cons, Nat.add_comm cs.length 1, ← Nat.add_assoc]
    exact ih (h.after_scanChar hn hchar) htail hrest

theorem scanFrom_of_resolve (h : resolve src = .ok jt) : scanFrom src 0 [] [] = .ok ([], jt) := by
  unfold resolve at h
  split at h
  · cases h
  · next hscan => cases h; exact hscan
  · cases h

/-- A successful table knows all brackets of the source. -/
theorem bracketsScanned_of_resolve (h : resolve src = .ok jt) : BracketsScanned src src.length [] jt := by
  simpa using (BracketsScanned.start src).after_scanFrom List.drop_zero (scanFrom_of_resolve h)

/-- Settles O42: in RUN the table is the resolver's, and its targets precede their keys by the invariant's bounds. -/
theorem jumpLookupCannotMiss : Obligations.JumpLookupCannotMiss := by
  intro s h hp i hi hclose
  obtain ⟨-, -, hresolve⟩ := (resolverInv_run_iff hp).1 h.resolver
  have hscan : BracketsScanned s.source s.source.length [] s.jt := bracketsScanned_of_resolve hresolve
  have hsrc : s.source[i]? = some Config.codeClose := by rw [s.source_getElem? hi, hclose]; rfl
  obtain ⟨o, ho⟩ := hscan.closers i (by simpa using hi) hsrc
  have hlt : o < i := (h.bounds.table _ (mem_of_mapGet ho)).2
  have hopen : some (s.progAt o) = some Config.codeOpen := by
    rw [← s.source_getElem? (hlt.trans hi)]; exact hscan.targets i o ho
  exact ⟨o, ho, hlt, Option.some.inj hopen⟩

/-! ### The history -/

/-- An instruction only adds events: `.` and `,` those of their ports, the others none (R191). -/
theorem exec_log_grows {i : Instr} (h : exec i s = .next t) : ∃ es, t.log = s.log ++ es := by
  obtain ⟨-, rfl⟩ | ⟨-, rfl⟩ | ⟨-, rfl⟩ | ⟨-, rfl⟩ | ⟨-, -, rfl⟩ | ⟨-, -, rfl⟩ | ⟨-, a, -, rfl⟩ |
    ⟨-, -, rfl⟩ | ⟨-, -, o, -, rfl⟩ | ⟨-, rfl⟩ := exec_cases h <;>
  simp [List.append_assoc]

/-- Every transition only adds events, the resets their own (R59, R253). -/
theorem Transition.log_grows (h : Transition s t) : ∃ es, t.log = s.log ++ es := by
  cases h with
  | hardwareReset => exact ⟨_, rfl⟩
  | execute => exact ⟨_, rfl⟩
  | reset => exact ⟨_, rfl⟩
  | scanFails => exact ⟨_, rfl⟩
  | openLeft => exact ⟨_, rfl⟩
  | endRun => exact ⟨_, rfl⟩
  | dispatch u _ _ _ hu =>
    obtain ⟨es, hlog⟩ := exec_log_grows hu
    exact ⟨es, hlog⟩
  | _ => exact ⟨[], (List.append_nil _).symm⟩

/-- Settles O50: OUT and the position in IN are read off a history that only grows. -/
theorem historyOnlyGrows : Obligations.HistoryOnlyGrows := by
  intro s t h
  obtain ⟨es, hlog⟩ := (step_transition h).log_grows
  refine ⟨⟨es, hlog⟩, ?_, ?_⟩
  · rw [State.outHistory_grow hlog]; exact List.prefix_append _ _
  · rw [State.inPosition_grow hlog]; exact Nat.le_add_right _ _

end Sys2Proof.Machine
end

section
/-! PROOFS. The encoding (30_encoding.md): decoder and encoder are inverse on characters and on whole programs (R80 to R82,
R85), and a code that is none of the eight is a no-op that takes its place (R86). -/

namespace Sys2Proof.Machine

/-! ### One character -/

/-- The decoder reads back every well-formed instruction: the per-instruction statements together. -/
theorem decodeChar_encode {i : Instr} (h : i.wellFormed = true) : decodeChar (encode i) = i := by
  have hread : Laws.EncodingAgrees.Statement i := by
    cases i with
    | right => exact Laws.EncodingAgrees.right
    | left => exact Laws.EncodingAgrees.left
    | inc => exact Laws.EncodingAgrees.inc
    | dec => exact Laws.EncodingAgrees.dec
    | out => exact Laws.EncodingAgrees.out
    | inp => exact Laws.EncodingAgrees.inp
    | loopOpen => exact Laws.EncodingAgrees.loopOpen
    | loopClose => exact Laws.EncodingAgrees.loopClose
    | nop c => exact Laws.EncodingAgrees.nop c
  simpa [decode] using hread h []

theorem wellFormed_nop_iff (c : Code) : (Instr.nop c).wellFormed = true ↔ c ∉ instrCodes := by
  simp [Instr.wellFormed]

/-- The default row (R85, R86). -/
theorem decodeChar_of_not_mem_instrCodes {c : Code} (h : c ∉ instrCodes) : decodeChar c = .nop c :=
  decodeChar_encode ((wellFormed_nop_iff c).2 h)

/-- No bit of a character is lost: the eight by the table, every other one in the NOP that carries it. -/
theorem encode_decodeChar (c : Code) : encode (decodeChar c) = c := by
  have eight : ∀ c ∈ instrCodes, encode (decodeChar c) = c := by decide
  by_cases h : c ∈ instrCodes
  · exact eight c h
  · rw [decodeChar_of_not_mem_instrCodes h]; rfl

theorem decodeChar_wellFormed (c : Code) : (decodeChar c).wellFormed = true := by
  have eight : ∀ c ∈ instrCodes, (decodeChar c).wellFormed = true := by decide
  by_cases h : c ∈ instrCodes
  · exact eight c h
  · rw [decodeChar_of_not_mem_instrCodes h]; exact (wellFormed_nop_iff c).2 h

/-! ### Whole programs -/

/-- R82: one instruction per character. -/
theorem decodeProgram_eq_map (cs : List Code) : decodeProgram cs = cs.map decodeChar := by
  induction cs with
  | nil => rfl
  | cons c cs ih => rw [decodeProgram, ih, List.map_cons]

theorem encodeProgram_eq_map (is : List Instr) : encodeProgram is = is.map encode := by
  induction is with
  | nil => rfl
  | cons i is ih => rw [encodeProgram, ih, List.map_cons]

theorem decodeProgram_encodeProgram {is : List Instr} (h : ∀ i ∈ is, i.wellFormed = true) :
    decodeProgram (encodeProgram is) = is := by
  calc decodeProgram (encodeProgram is) = is.map (decodeChar ∘ encode) := by
        rw [decodeProgram_eq_map, encodeProgram_eq_map, List.map_map]
    _ = is.map id := List.map_congr_left fun i hi => decodeChar_encode (h i hi)
    _ = is := List.map_id is

theorem encodeProgram_decodeProgram (cs : List Code) : encodeProgram (decodeProgram cs) = cs := by
  calc encodeProgram (decodeProgram cs) = cs.map (encode ∘ decodeChar) := by
        rw [decodeProgram_eq_map, encodeProgram_eq_map, List.map_map]
    _ = cs.map id := List.map_congr_left fun c _ => encode_decodeChar c
    _ = cs := List.map_id cs

theorem decodeProgram_wellFormed (cs : List Code) : ∀ i ∈ decodeProgram cs, i.wellFormed = true := by
  rw [decodeProgram_eq_map]
  exact List.forall_mem_map.2 fun c _ => decodeChar_wellFormed c

/-- Settles O3, character by character: a program is the list of its characters' instructions. -/
theorem decodeAndEncodeProgramsAgree : Obligations.DecodeAndEncodeProgramsAgree :=
  ⟨fun _ => decodeProgram_encodeProgram, fun cs => ⟨encodeProgram_decodeProgram cs, decodeProgram_wellFormed cs⟩⟩

/-! ### The no-op -/

/-- R101: the scan ignores a character that is no bracket. -/
theorem scanChar_of_not_bracket {c : Code} (ho : decodeChar c ≠ .loopOpen) (hc : decodeChar c ≠ .loopClose) (i : Nat)
    (stk : List Nat) (jt : List (Nat × Nat)) : scanChar c i stk jt = .ok (stk, jt) := by
  cases hd : decodeChar c with
  | loopOpen => exact absurd hd ho
  | loopClose => exact absurd hd hc
  | _ => simp [scanChar, hd]

/-- An ignored character still counts its index (R86, R101). -/
theorem scanFrom_cons_of_not_bracket {c : Code} (ho : decodeChar c ≠ .loopOpen) (hc : decodeChar c ≠ .loopClose)
    (cs : List Code) (i : Nat) (stk : List Nat) (jt : List (Nat × Nat)) :
    scanFrom (c :: cs) i stk jt = scanFrom cs (i + 1) stk jt := by
  rw [scanFrom, scanChar_of_not_bracket ho hc]

theorem exec_nop (c : Code) (s : State) : exec (.nop c) s = .next s := rfl

/-- The dispatch of a NOP with no port waiting (R126, R180). -/
theorem step_nop {s : State} {c : Code} (hp : s.phase = .run) (hl : s.pc < s.progLen) (hr : s.rstAsserted = false)
    (hw : s.waiting = false) (hf : s.fetched = .nop c) :
    step s = .next { s.tick s.movesWhileBusy with pc := s.pc + 1 } := by
  have hexec : exec s.fetched (s.tick s.movesWhileBusy) = .next (s.tick s.movesWhileBusy) := by rw [hf, exec_nop]
  have hdone : (s.tick s.movesWhileBusy).waiting = false := hw
  rw [step_dispatch hp hl hr hexec, State.afterDispatch_of_done hdone]
  rfl

/-- Settles O4: such a code decodes by the default row, so dispatch and scan meet a NOP, which is no bracket. -/
theorem everyOtherCharacterOnlyTakesItsPlace : Obligations.EveryOtherCharacterOnlyTakesItsPlace := by
  intro c h
  have hnop : decodeChar c = .nop c := decodeChar_of_not_mem_instrCodes h
  refine ⟨hnop, exec_nop c, fun s hp hl hr hw hc => ?_, scanFrom_cons_of_not_bracket ?_ ?_⟩
  · exact step_nop hp hl hr hw (by rw [State.fetched, hc, hnop])
  · simp [hnop]
  · simp [hnop]

end Sys2Proof.Machine
end

section
/-! PROOFS. The Loop Resolver (40_loop_resolver.md): the scan's stack holds the unmatched `[` with balanced characters between
them, so the scan and balancedness say the same of a source (R90, R100 to R107); and the stepwise scan is the pure one
(R108, R109). -/

namespace Sys2Proof.Machine

variable {src cs as bs : List Code} {c : Code} {i n o : Nat} {stk stk' : List Nat} {jt jt' : List (Nat × Nat)}
  {e : StructuralError}

/-! ### The scan, equation by equation -/

theorem scanFrom_cons_open (cs : List Code) (i : Nat) (stk : List Nat) (jt : List (Nat × Nat)) :
    scanFrom (Config.codeOpen :: cs) i stk jt = scanFrom cs (i + 1) (i :: stk) jt := rfl

theorem scanFrom_cons_close (cs : List Code) (i o : Nat) (stk : List Nat) (jt : List (Nat × Nat)) :
    scanFrom (Config.codeClose :: cs) i (o :: stk) jt = scanFrom cs (i + 1) stk (mapInsert jt i o) := rfl

theorem scanFrom_cons_close_nil (cs : List Code) (i : Nat) (jt : List (Nat × Nat)) :
    scanFrom (Config.codeClose :: cs) i [] jt = .error (.unmatchedClose i) := rfl

/-- The scan of two pieces: the second goes on where the first ends, and a failure of the first is final (R101, R102). -/
theorem scanFrom_append (as bs : List Code) (i : Nat) (stk : List Nat) (jt : List (Nat × Nat)) :
    scanFrom (as ++ bs) i stk jt =
      scanFrom as i stk jt >>= fun r => scanFrom bs (i + as.length) r.1 r.2 := by
  induction as generalizing i stk jt with
  | nil => rfl
  | cons c as ih =>
    rw [List.cons_append, scanFrom, scanFrom, List.length_cons]
    cases scanChar c i stk jt with
    | error e => rfl
    | ok r =>
      have hi : i + (as.length + 1) = i + 1 + as.length := by omega
      rw [hi]
      exact ih (i + 1) r.1 r.2

theorem scanFrom_append_of_ok (h : scanFrom as i stk jt = .ok (stk', jt')) (bs : List Code) :
    scanFrom (as ++ bs) i stk jt = scanFrom bs (i + as.length) stk' jt' := by
  rw [scanFrom_append, h]; rfl

theorem scanFrom_append_of_error (h : scanFrom as i stk jt = .error e) (bs : List Code) :
    scanFrom (as ++ bs) i stk jt = .error e := by
  rw [scanFrom_append, h]; rfl

/-- A piece at the head of a scan that succeeds is scanned with success. -/
theorem scanFrom_append_ok {r : List Nat × List (Nat × Nat)} (h : scanFrom (as ++ bs) i stk jt = .ok r) :
    ∃ stk₁ jt₁, scanFrom as i stk jt = .ok (stk₁, jt₁) ∧ scanFrom bs (i + as.length) stk₁ jt₁ = .ok r := by
  cases ha : scanFrom as i stk jt with
  | error e => rw [scanFrom_append_of_error ha] at h; cases h
  | ok p => exact ⟨p.1, p.2, rfl, scanFrom_append_of_ok ha bs ▸ h⟩

/-- R102: what a failed character was, and what it found on the stack. -/
theorem scanChar_error_iff :
    scanChar c i stk jt = .error e ↔ c = Config.codeClose ∧ stk = [] ∧ e = .unmatchedClose i := by
  refine ⟨fun h => ?_, ?_⟩
  · obtain rfl := scanChar_error h
    cases hd : decodeChar c with
    | loopClose =>
      cases stk with
      | nil => exact ⟨(decodeChar_eq_loopClose_iff c).1 hd, rfl, rfl⟩
      | cons o stk => simp [scanChar, hd] at h
    | _ => simp [scanChar, hd] at h
  · rintro ⟨rfl, rfl, rfl⟩; rfl

/-- R101, R102: a scan fails at a `]` before which it has come to an empty stack. -/
theorem scanFrom_error (h : scanFrom cs i stk jt = .error e) :
    ∃ k jt', cs[k]? = some Config.codeClose ∧ scanFrom (cs.take k) i stk jt = .ok ([], jt') ∧
      e = .unmatchedClose (i + k) := by
  induction cs generalizing i stk jt with
  | nil => cases h
  | cons c cs ih =>
    rw [scanFrom] at h
    cases hc : scanChar c i stk jt with
    | error e' =>
      obtain ⟨rfl, rfl, rfl⟩ := scanChar_error_iff.1 hc
      rw [hc] at h
      cases h
      exact ⟨0, jt, rfl, rfl, rfl⟩
    | ok r =>
      rw [hc] at h
      obtain ⟨k, jt', hclose, hscan, rfl⟩ := ih h
      refine ⟨k + 1, jt', hclose, ?_, by rw [Nat.add_right_comm, Nat.add_assoc]⟩
      rw [List.take_succ_cons, scanFrom, hc]
      exact hscan

/-! ### `Resolve` in terms of the scan -/

theorem resolve_ok_iff : resolve src = .ok jt ↔ scanFrom src 0 [] [] = .ok ([], jt) :=
  ⟨scanFrom_of_resolve, resolve_of_scanFrom⟩

theorem resolve_of_scanFrom_error (h : scanFrom src 0 [] [] = .error e) : resolve src = .error e := by
  rw [resolve, h]

theorem resolve_of_scanFrom_cons (h : scanFrom src 0 [] [] = .ok (o :: stk, jt)) :
    resolve src = .error (.unmatchedOpen o) := by
  rw [resolve, h]

/-- R102, R103: the two ways in which resolution fails. -/
theorem resolve_error (h : resolve src = .error e) :
    scanFrom src 0 [] [] = .error e ∨
      ∃ o below jt, scanFrom src 0 [] [] = .ok (o :: below, jt) ∧ e = .unmatchedOpen o := by
  rw [resolve] at h
  split at h
  · next hscan => cases h; exact .inl hscan
  · cases h
  · next o below jt hscan => cases h; exact .inr ⟨o, below, jt, hscan, rfl⟩

/-- R102: the error of the scan itself. -/
theorem resolve_unmatchedClose_iff :
    resolve src = .error (.unmatchedClose i) ↔ scanFrom src 0 [] [] = .error (.unmatchedClose i) := by
  refine ⟨fun h => ?_, resolve_of_scanFrom_error⟩
  obtain hscan | ⟨o, below, jt, -, he⟩ := resolve_error h
  · exact hscan
  · cases he

/-- R103: the error of a scan that has come to its end. -/
theorem resolve_unmatchedOpen_iff :
    resolve src = .error (.unmatchedOpen i) ↔ ∃ below jt, scanFrom src 0 [] [] = .ok (i :: below, jt) := by
  refine ⟨fun h => ?_, fun ⟨below, jt, hscan⟩ => resolve_of_scanFrom_cons hscan⟩
  obtain hscan | ⟨o, below, jt, hscan, he⟩ := resolve_error h
  · obtain ⟨k, jt', -, -, he⟩ := scanFrom_error hscan
    cases he
  · cases he; exact ⟨below, jt, hscan⟩

/-! ### Balanced characters leave the stack as it was -/

theorem Balanced.append (ha : Balanced as) (hb : Balanced bs) : Balanced (as ++ bs) := by
  induction ha with
  | nil => exact hb
  | other c rest ho hc _ ih => exact .other c _ ho hc ih
  | pair inner rest hinner _ _ ih =>
    simpa using Balanced.pair inner _ hinner ih

theorem Balanced.scanFrom_eq (h : Balanced cs) (i : Nat) (stk : List Nat) (jt : List (Nat × Nat)) :
    ∃ jt', scanFrom cs i stk jt = .ok (stk, jt') := by
  induction h generalizing i stk jt with
  | nil => exact ⟨jt, rfl⟩
  | other c rest ho hc _ ih => rw [scanFrom_cons_of_not_bracket ho hc]; exact ih ..
  | pair inner rest _ _ ihinner ihrest =>
    obtain ⟨jt₁, hinner⟩ := ihinner (i + 1) (i :: stk) jt
    rw [List.cons_append, scanFrom_cons_open, scanFrom_append_of_ok hinner, scanFrom_cons_close]
    exact ihrest ..

/-! ### How many brackets a scan has met -/

/-- R105: each `[` pushes one index, and each `]` pops one. -/
theorem scanFrom_stack_length (h : scanFrom cs i stk jt = .ok (stk', jt')) :
    stk'.length + cs.count Config.codeClose = stk.length + cs.count Config.codeOpen := by
  induction cs generalizing i stk jt with
  | nil =>
    obtain ⟨rfl, -⟩ : stk = stk' ∧ jt = jt' := by simpa [scanFrom] using h
    rfl
  | cons c cs ih =>
    obtain ⟨stk₁, jt₁, hc, hcs⟩ := scanFrom_cons_ok h
    have hrest := ih hcs
    obtain ⟨hd, rfl, -⟩ | ⟨hd, o, rfl, -⟩ | ⟨ho, hcl, rfl, -⟩ := scanChar_ok_cases hc
    · obtain rfl := (decodeChar_eq_loopOpen_iff c).1 hd
      have hne : Config.codeOpen ≠ Config.codeClose := by decide
      rw [List.count_cons_of_ne hne, List.count_cons_self]
      simp only [List.length_cons] at hrest; omega
    · obtain rfl := (decodeChar_eq_loopClose_iff c).1 hd
      have hne : Config.codeClose ≠ Config.codeOpen := by decide
      rw [List.count_cons_of_ne hne, List.count_cons_self, List.length_cons]
      omega
    · rw [List.count_cons_of_ne (mt (decodeChar_eq_loopClose_iff c).2 hcl),
        List.count_cons_of_ne (mt (decodeChar_eq_loopOpen_iff c).2 ho)]
      exact hrest

/-- Balanced characters cut in two: the head has no `]` too many and the rest no `[`. -/
theorem Balanced.counts_of_append (h : Balanced (as ++ bs)) :
    as.count Config.codeClose ≤ as.count Config.codeOpen ∧ bs.count Config.codeOpen ≤ bs.count Config.codeClose := by
  obtain ⟨jt, hscan⟩ := h.scanFrom_eq 0 [] []
  obtain ⟨stk₁, jt₁, has, hbs⟩ := scanFrom_append_ok hscan
  have hhead : stk₁.length + as.count Config.codeClose = 0 + as.count Config.codeOpen := scanFrom_stack_length has
  have hrest : 0 + bs.count Config.codeClose = stk₁.length + bs.count Config.codeOpen := scanFrom_stack_length hbs
  omega

/-! ### What a scan from the start keeps -/

/-- What holds at the start and is kept by every character scanned holds at the end of the scan (R101). -/
theorem scanFrom_keeps (P : Nat → List Nat → List (Nat × Nat) → Prop) (hstart : P 0 [] [])
    (hchar : ∀ n c stk jt stk' jt', src[n]? = some c → scanChar c n stk jt = .ok (stk', jt') → P n stk jt →
      P (n + 1) stk' jt')
    (h : scanFrom src 0 [] [] = .ok (stk', jt')) : P src.length stk' jt' := by
  induction src using List.reverseRecOn generalizing stk' jt' with
  | nil =>
    obtain ⟨rfl, rfl⟩ : [] = stk' ∧ [] = jt' := by simpa [scanFrom] using h
    exact hstart
  | append_singleton cs c ih =>
    obtain ⟨stk₁, jt₁, hcs, hlast⟩ := scanFrom_append_ok h
    obtain ⟨stk₂, jt₂, hc, hnil⟩ := scanFrom_cons_ok hlast
    obtain ⟨rfl, rfl⟩ : stk₂ = stk' ∧ jt₂ = jt' := by simpa [scanFrom] using hnil
    rw [List.length_append, List.length_singleton]
    refine hchar _ c _ _ _ _ (by simp) (by simpa using hc) (ih (fun n d _ _ _ _ hn => ?_) hcs)
    obtain ⟨hlt, -⟩ := List.getElem?_eq_some_iff.1 hn
    exact hchar n d _ _ _ _ ((List.getElem?_append_left hlt).trans hn)

/-! ### Stretches of the source: the characters from index `a` on and below `n` -/

theorem stretch_append {a n m : Nat} (src : List Code) (han : a ≤ n) (hnm : n ≤ m) :
    (src.take n).drop a ++ (src.take m).drop n = (src.take m).drop a := by
  have hhead : (src.take n).drop a = ((src.take m).drop a).take (n - a) := by
    rw [← List.drop_take, List.take_take, Nat.min_eq_left hnm]
  have hrest : (src.take m).drop n = ((src.take m).drop a).drop (n - a) := by
    rw [List.drop_drop, Nat.add_sub_cancel' han]
  rw [hhead, hrest, List.take_append_drop]

theorem stretch_singleton (h : src[n]? = some c) : (src.take (n + 1)).drop n = [c] := by
  obtain ⟨hlt, rfl⟩ := List.getElem?_eq_some_iff.1 h
  rw [List.drop_take, List.drop_eq_getElem_cons hlt, Nat.add_sub_cancel_left, List.take_one]; rfl

/-! ### Matched pairs -/

/-- R107 (a) to (d): the `[` at `o` and the `]` at `i` are a pair, the characters between them being balanced. -/
structure MatchedPair (src : List Code) (o i : Nat) : Prop where
  close : src[i]? = some Config.codeClose
  opener : src[o]? = some Config.codeOpen
  before : o < i
  inside : Balanced ((src.take i).drop (o + 1))

theorem MatchedPair.balanced (h : MatchedPair src o i) : Balanced ((src.take (i + 1)).drop o) := by
  have hbefore : o < i := h.before
  have hcut : [Config.codeOpen] ++ (src.take i).drop (o + 1) ++ [Config.codeClose] = (src.take (i + 1)).drop o := by
    rw [← stretch_singleton h.opener, stretch_append src (by omega) (by omega), ← stretch_singleton h.close,
      stretch_append src (by omega) (by omega)]
  rw [← hcut]
  exact .pair _ [] h.inside .nil

/-- R107 (f): were the pairs interleaved, the characters from `o'` to `i` would end the inside of the one pair, with a `]` for
every `[`, and begin with the `]` at `i` the inside of the other, with one `]` too many. -/
theorem MatchedPair.nested_or_disjoint {o' i' : Nat} (h : MatchedPair src o i) (h' : MatchedPair src o' i')
    (hii : i < i') : o' < o ∨ i < o' := by
  by_contra hn
  have hne : o' ≠ i := by
    rintro rfl
    exact absurd (h.close.symm.trans h'.opener) (by decide)
  have hbefore : o < i := h.before
  have hend : ((src.take i).drop (o' + 1)).count Config.codeOpen ≤
      ((src.take i).drop (o' + 1)).count Config.codeClose := by
    have hinside := h.inside
    rw [← stretch_append src (show o + 1 ≤ o' + 1 by omega) (show o' + 1 ≤ i by omega)] at hinside
    exact hinside.counts_of_append.2
  have hbegin : ((src.take i).drop (o' + 1) ++ [Config.codeClose]).count Config.codeClose ≤
      ((src.take i).drop (o' + 1) ++ [Config.codeClose]).count Config.codeOpen := by
    have hinside := h'.inside
    rw [← stretch_append src (show o' + 1 ≤ i + 1 by omega) (show i + 1 ≤ i' by omega),
      ← stretch_append src (show o' + 1 ≤ i by omega) (Nat.le_succ i), stretch_singleton h.close] at hinside
    exact hinside.counts_of_append.1
  have hopen : [Config.codeClose].count Config.codeOpen = 0 := by decide
  have hclose : [Config.codeClose].count Config.codeClose = 1 := by decide
  rw [List.count_append, List.count_append, hopen, hclose] at hbegin
  omega

/-! ### What stack and table are of the characters scanned -/

/-- The stack holds the unmatched `[` below `n`, the last one on top: the characters before the first, between each and the
next, and after the last are balanced. -/
inductive StackOf (src : List Code) : Nat → List Nat → Prop where
  | nil {n : Nat} (balanced : Balanced (src.take n)) : StackOf src n []
  | cons {n o : Nat} {below : List Nat} (before : o < n) (opener : src[o]? = some Config.codeOpen)
      (balanced : Balanced ((src.take n).drop (o + 1))) (outer : StackOf src o below) : StackOf src n (o :: below)

/-- Balanced characters leave the unmatched `[` as they are. -/
theorem StackOf.extend {m : Nat} (h : StackOf src n stk) (hnm : n ≤ m) (hb : Balanced ((src.take m).drop n)) :
    StackOf src m stk := by
  cases h with
  | nil hbal =>
    refine .nil ?_
    rw [← List.drop_zero (l := src.take m), ← stretch_append src n.zero_le hnm]
    exact hbal.append hb
  | cons hlt hopen hbal hbelow =>
    refine .cons (hlt.trans_le hnm) hopen ?_ hbelow
    rw [← stretch_append src hlt hnm]
    exact hbal.append hb

theorem StackOf.matchedPair (h : StackOf src n (o :: stk)) (hn : src[n]? = some Config.codeClose) :
    MatchedPair src o n := by
  cases h with
  | cons hlt hopen hbal _ => exact ⟨hn, hopen, hlt, hbal⟩

/-- The scan's stack and table: the unmatched `[` and the pairs (R100). -/
structure ScanOf (src : List Code) (n : Nat) (stk : List Nat) (jt : List (Nat × Nat)) : Prop where
  stack : StackOf src n stk
  pairs : ∀ i o, mapGet jt i = some o → MatchedPair src o i

theorem ScanOf.after_scanChar (hn : src[n]? = some c) (hc : scanChar c n stk jt = .ok (stk', jt'))
    (h : ScanOf src n stk jt) : ScanOf src (n + 1) stk' jt' := by
  obtain ⟨hd, rfl, rfl⟩ | ⟨hd, o, rfl, rfl⟩ | ⟨ho, hcl, rfl, rfl⟩ := scanChar_ok_cases hc
  · obtain rfl := (decodeChar_eq_loopOpen_iff c).1 hd
    refine ⟨.cons (Nat.lt_succ_self n) hn ?_ h.stack, h.pairs⟩
    have hnone : (src.take (n + 1)).drop (n + 1) = [] := List.drop_eq_nil_of_le (List.length_take_le _ _)
    exact hnone ▸ .nil
  · obtain rfl := (decodeChar_eq_loopClose_iff c).1 hd
    have hpair : MatchedPair src o n := h.stack.matchedPair hn
    refine ⟨?_, fun i p hp => ?_⟩
    · cases h.stack with
      | cons hlt _ _ hbelow => exact hbelow.extend (by omega) hpair.balanced
    · rw [mapGet_mapInsert] at hp
      split at hp
      · next hi => cases hp; exact hi ▸ hpair
      · exact h.pairs i p hp
  · refine ⟨h.stack.extend n.le_succ ?_, h.pairs⟩
    rw [stretch_singleton hn]
    exact .other c [] ho hcl .nil

theorem scanOf_of_scanFrom (h : scanFrom src 0 [] [] = .ok (stk, jt)) : ScanOf src src.length stk jt :=
  scanFrom_keeps (ScanOf src) ⟨.nil .nil, by simp⟩ (fun _ _ _ _ _ _ => ScanOf.after_scanChar) h

/-- R90, R100: the sources that a scan ends with nothing on its stack are the balanced ones. -/
theorem balanced_iff_scanFrom : Balanced src ↔ ∃ jt, scanFrom src 0 [] [] = .ok ([], jt) := by
  refine ⟨fun h => h.scanFrom_eq 0 [] [], fun ⟨jt, hscan⟩ => ?_⟩
  cases (scanOf_of_scanFrom hscan).stack with
  | nil hbal => rwa [List.take_length] at hbal

/-! ### The size of the table -/

/-- A key above all others is entered at the end. -/
theorem mapInsert_eq_append {α : Type} {m : List (Nat × α)} {a : Nat} (v : α) (h : ∀ e ∈ m, e.1 < a) :
    mapInsert m a v = m ++ [(a, v)] := by
  induction m with
  | nil => rfl
  | cons e m ih =>
    obtain ⟨hlt, hm⟩ := List.forall_mem_cons.1 h
    rw [mapInsert, if_neg hlt.le.not_gt, if_neg hlt.ne', ih hm, List.cons_append]

/-- The table has one entry for each `]` below `n` (R105). -/
structure TableSize (src : List Code) (n : Nat) (jt : List (Nat × Nat)) : Prop where
  keys : ∀ e ∈ jt, e.1 < n
  size : jt.length = (src.take n).count Config.codeClose

theorem TableSize.after_scanChar (hn : src[n]? = some c) (hc : scanChar c n stk jt = .ok (stk', jt'))
    (h : TableSize src n jt) : TableSize src (n + 1) jt' := by
  have hkeys : ∀ e ∈ jt, e.1 < n + 1 := fun e he => Nat.lt_succ_of_lt (h.keys e he)
  have htake : src.take (n + 1) = src.take n ++ [c] := by rw [List.take_add_one, hn]; rfl
  have hother (hne : c ≠ Config.codeClose) : TableSize src (n + 1) jt :=
    ⟨hkeys, by rw [htake, List.count_append, List.count_singleton, h.size]; simp [hne]⟩
  obtain ⟨hd, -, rfl⟩ | ⟨hd, o, -, rfl⟩ | ⟨-, hcl, -, rfl⟩ := scanChar_ok_cases hc
  · exact hother (by rw [(decodeChar_eq_loopOpen_iff c).1 hd]; decide)
  · obtain rfl := (decodeChar_eq_loopClose_iff c).1 hd
    rw [mapInsert_eq_append o h.keys]
    refine ⟨List.forall_mem_append.2 ⟨hkeys, by simp⟩, ?_⟩
    rw [htake, List.length_append, List.count_append, h.size, List.count_singleton_self, List.length_singleton]
  · exact hother (mt (decodeChar_eq_loopClose_iff c).2 hcl)

theorem tableSize_of_scanFrom (h : scanFrom src 0 [] [] = .ok (stk, jt)) : TableSize src src.length jt :=
  scanFrom_keeps (fun n _ => TableSize src n) ⟨by simp, rfl⟩ (fun _ _ _ _ _ _ => TableSize.after_scanChar) h

/-! ### What `Resolve` reports -/

/-- Settles O13: the scan ends with an empty stack exactly on the balanced sources, each `]` making its entry. -/
theorem resolutionSucceedsExactlyOnBalancedSources : Obligations.ResolutionSucceedsExactlyOnBalancedSources := by
  refine ⟨fun src => ?_, fun src jt h => ?_⟩
  · simp only [resolve_ok_iff, balanced_iff_scanFrom]
  · have hscan := resolve_ok_iff.1 h
    exact ⟨by simpa using (tableSize_of_scanFrom hscan).size, by simpa using (scanFrom_stack_length hscan).symm⟩

/-- Settles O14: the entries are matched pairs, of which no two are interleaved, and each `]` has its own. -/
theorem resolvedTableMatchesTheBrackets : Obligations.ResolvedTableMatchesTheBrackets := by
  intro src jt h
  have pairs : ∀ i o, mapGet jt i = some o → MatchedPair src o i := (scanOf_of_scanFrom (resolve_ok_iff.1 h)).pairs
  have apart (i o i' o') (hi : mapGet jt i = some o) (hi' : mapGet jt i' = some o') (hii : i < i') : o' < o ∨ i < o' :=
    (pairs i o hi).nested_or_disjoint (pairs i' o' hi') hii
  refine ⟨fun i o hi => (pairs i o hi).close, fun i o hi => (pairs i o hi).opener, fun i o hi => (pairs i o hi).before,
    fun i o hi => (pairs i o hi).inside, fun i i' o hi hi' => ?_, apart, fun i hclose => ?_⟩
  · have hbefore : o < i := (pairs i o hi).before
    have hbefore' : o < i' := (pairs i' o hi').before
    obtain hlt | heq | hlt := Nat.lt_trichotomy i i'
    · have := apart i o i' o hi hi' hlt; omega
    · exact heq
    · have := apart i' o i o hi' hi hlt; omega
  · obtain ⟨hlt, -⟩ := List.getElem?_eq_some_iff.1 hclose
    exact (bracketsScanned_of_resolve h).closers i hlt hclose

/-- The source with the character at `i` written out. -/
theorem take_append_cons_drop (h : src[i]? = some c) : src.take i ++ c :: src.drop (i + 1) = src := by
  obtain ⟨hlt, rfl⟩ := List.getElem?_eq_some_iff.1 h
  rw [← List.drop_eq_getElem_cons hlt, List.take_append_drop]

theorem length_take_of_getElem? (h : src[i]? = some c) : (src.take i).length = i :=
  List.length_take_of_le (List.getElem?_eq_some_iff.1 h).1.le

/-- R102: after balanced characters a `]` finds the stack empty. -/
theorem scanFrom_unmatchedClose (hc : src[i]? = some Config.codeClose) (hb : Balanced (src.take i)) :
    scanFrom src 0 [] [] = .error (.unmatchedClose i) := by
  obtain ⟨jt, hscan⟩ := hb.scanFrom_eq 0 [] []
  rw [← take_append_cons_drop hc, scanFrom_append_of_ok hscan, length_take_of_getElem? hc, Nat.zero_add,
    scanFrom_cons_close_nil]

/-- Settles O15: the scan fails exactly at a `]` before which it has come to an empty stack. -/
theorem unmatchedCloseIsTheLeftmost : Obligations.UnmatchedCloseIsTheLeftmost := by
  intro src i
  rw [resolve_unmatchedClose_iff]
  refine ⟨fun h => ?_, fun ⟨hc, hb⟩ => scanFrom_unmatchedClose hc hb⟩
  obtain ⟨k, jt, hclose, hscan, he⟩ := scanFrom_error h
  obtain rfl : i = k := by simpa using he
  exact ⟨hclose, balanced_iff_scanFrom.2 ⟨jt, hscan⟩⟩

/-- Settles O17: the scan has failed before it comes to what follows. -/
theorem unmatchedCloseTakesPrecedence : Obligations.UnmatchedCloseTakesPrecedence :=
  fun _ _ hc hb rest => resolve_of_scanFrom_error (scanFrom_append_of_error (scanFrom_unmatchedClose hc hb) rest)

/-- R103: a `[` that the scan comes to, with balanced characters after it to the end, is on top of the stack there. -/
theorem scanFrom_unmatchedOpen (ho : src[i]? = some Config.codeOpen) (hb : Balanced (src.drop (i + 1)))
    (hscan : scanFrom (src.take i) 0 [] [] = .ok (stk, jt)) : ∃ jt', scanFrom src 0 [] [] = .ok (i :: stk, jt') := by
  obtain ⟨jt', hrest⟩ := hb.scanFrom_eq (i + 1) (i :: stk) jt
  refine ⟨jt', ?_⟩
  rw [← take_append_cons_drop ho, scanFrom_append_of_ok hscan, length_take_of_getElem? ho, Nat.zero_add,
    scanFrom_cons_open, hrest]

/-- Settles O16: the report is the top of the stack, after which all is balanced; and a scan that does not fail comes to
every `[`. -/
theorem unmatchedOpenIsTheLastPushed : Obligations.UnmatchedOpenIsTheLastPushed := by
  intro src i
  refine ⟨fun h => ?_, fun ⟨ho, hb, hnone⟩ => ?_⟩
  · obtain ⟨below, jt, hscan⟩ := resolve_unmatchedOpen_iff.1 h
    cases (scanOf_of_scanFrom hscan).stack with
    | cons _ hopen hbal _ => exact ⟨hopen, by rwa [List.take_length] at hbal, by simp [h]⟩
  · cases hscan : scanFrom (src.take i) 0 [] [] with
    | error e =>
      obtain ⟨k, -, -, -, rfl⟩ := scanFrom_error hscan
      have hfail := scanFrom_append_of_error hscan (src.drop i)
      rw [List.take_append_drop] at hfail
      exact absurd (resolve_of_scanFrom_error hfail) (hnone _)
    | ok r =>
      obtain ⟨jt, hall⟩ := scanFrom_unmatchedOpen ho hb hscan
      exact resolve_of_scanFrom_cons hall

/-! ### The stepwise scan -/

variable {s : State}

theorem run_succ_of_step (M : Host.Core) {s s' : M.State} (h : M.step s = .next s') (k : Nat) :
    M.run (k + 1) s = M.run k s' := by
  rw [Host.Core.run, h]

/-- What becomes of a machine in RESOLVE when the resolver's verdict is there: the table in RUN (R123), or the error's report
(R122). -/
def State.resolved (s : State) : Except StructuralError (List (Nat × Nat)) → State
  | .ok jt => { s.tick noMoves with jt := jt }.startRun
  | .error e => (s.tick noMoves).raise e

/-- RESOLVE with no host move pending, the stack and the table being those of the characters scanned. -/
structure Scanning (s : State) : Prop where
  phase : s.phase = .resolve
  moves : s.moves = noMoves
  scanned : scanFrom (s.source.take s.scan) 0 [] [] = .ok (s.stk, s.jt)

theorem Scanning.step_eq (h : Scanning s) : step s = .next (s.tick noMoves).resolveStep := by
  have hm : s.hostMove = (.pause, noMoves) := by rw [State.hostMove, h.moves, feedNext_noMoves]
  exact (step_pause hm).trans (State.runEngine_resolve h.phase)

/-- One more character scanned. -/
theorem Scanning.next (h : Scanning s) (hl : s.scan < s.progLen)
    (hc : scanChar (s.progAt s.scan) s.scan s.stk s.jt = .ok (stk, jt)) :
    Scanning { s.tick noMoves with stk := stk, jt := jt, scan := s.scan + 1 } := by
  refine ⟨h.phase, rfl, ?_⟩
  have hlen : 0 + (s.source.take s.scan).length = s.scan := by simp [hl.le]
  have hsnoc : scanFrom (s.source.take s.scan ++ [s.progAt s.scan]) 0 [] [] = .ok (stk, jt) :=
    scanFrom_snoc h.scanned (by rw [hlen]; exact hc)
  rw [← s.source_take_succ hl] at hsnoc
  exact hsnoc

/-- The scan's failure at a character is that of the whole source (R102). -/
theorem Scanning.resolve_of_error (h : Scanning s) (hl : s.scan < s.progLen)
    (hc : scanChar (s.progAt s.scan) s.scan s.stk s.jt = .error e) : resolve s.source = .error e := by
  refine resolve_of_scanFrom_error ?_
  have hsrc := s.source_getElem? hl
  rw [← take_append_cons_drop hsrc, scanFrom_append_of_ok h.scanned, length_take_of_getElem? hsrc, Nat.zero_add,
    scanFrom, hc]

theorem Scanning.scanFrom_source (h : Scanning s) (hl : s.progLen ≤ s.scan) :
    scanFrom s.source 0 [] [] = .ok (s.stk, s.jt) := by
  have hall : s.source.take s.scan = s.source := List.take_of_length_le (by simpa using hl)
  exact hall ▸ h.scanned

/-- The verdict overwrites what the scan of a character has written. -/
theorem State.resolved_of_scanned (s : State) (stk : List Nat) (jt : List (Nat × Nat)) (scan : Nat)
    (r : Except StructuralError (List (Nat × Nat))) :
    ({ s.tick noMoves with stk := stk, jt := jt, scan := scan } : State).resolved r = s.resolved r := by
  cases r <;> rfl

/-- At the end of the scan the step gives the verdict (R102, R103). -/
theorem Scanning.step_at_end (h : Scanning s) (hl : s.progLen ≤ s.scan) :
    step s = .next (s.resolved (resolve s.source)) := by
  have hscan := h.scanFrom_source hl
  rw [h.step_eq]
  obtain ⟨hl', -⟩ | ⟨hl', -⟩ | ⟨-, hs, hstep⟩ | ⟨-, o, below, hs, hstep⟩ := (s.tick noMoves).resolveStep_cases
  · exact absurd hl' hl.not_gt
  · exact absurd hl' hl.not_gt
  · have hs' : s.stk = [] := hs
    rw [hs'] at hscan
    rw [hstep, resolve_of_scanFrom hscan]; rfl
  · have hs' : s.stk = o :: below := hs
    rw [hs'] at hscan
    rw [hstep, resolve_of_scanFrom_cons hscan]; rfl

/-- From anywhere in the scan one step for each character left, and one for the verdict, come to what `Resolve` says (R109). -/
theorem Scanning.run_resolved (h : Scanning s) {d : Nat} (hd : s.progLen = s.scan + d) :
    ∃ k ≤ d + 1, core.run k s = .next (s.resolved (resolve s.source)) := by
  induction d generalizing s with
  | zero => exact ⟨1, le_rfl, run_succ_of_step core (h.step_at_end hd.le) 0⟩
  | succ d ih =>
    have hl : s.scan < s.progLen := by omega
    have hstep := h.step_eq
    obtain ⟨-, e, hc, heq⟩ | ⟨-, stk, jt, hc, heq⟩ | ⟨hl', -⟩ | ⟨hl', -⟩ := (s.tick noMoves).resolveStep_cases
    · rw [heq] at hstep
      rw [h.resolve_of_error hl hc]
      exact ⟨1, by omega, run_succ_of_step core hstep 0⟩
    · rw [heq] at hstep
      have hleft : s.progLen = s.scan + 1 + d := by omega
      obtain ⟨k, hk, hrun⟩ := ih (h.next hl hc) hleft
      rw [State.resolved_of_scanned] at hrun
      exact ⟨k + 1, Nat.succ_le_succ hk, (run_succ_of_step core hstep k).trans hrun⟩
    · exact absurd hl hl'.not_gt
    · exact absurd hl hl'.not_gt

/-- Settles O18: at the start of RESOLVE nothing is scanned yet, and the verdict's state is the start's but for what it
reports. -/
theorem stepwiseScanComputesResolve : Obligations.StepwiseScanComputesResolve := by
  intro s hp hscan hstk hjt hpc hm
  have hstart : Scanning s := ⟨hp, hm, by rw [hscan, hstk, hjt]; rfl⟩
  obtain ⟨k, hk, hrun⟩ := hstart.run_resolved (d := s.progLen) (by omega)
  refine ⟨k, _, hk, hrun, ?_⟩
  cases resolve s.source with
  | ok jt => simp [State.resolved, State.startRun, State.tick, hscan, hstk, hm]
  | error e => simp [State.resolved, State.raise, State.complete, State.tick, hscan, hstk, hjt, hpc, hm]

end Sys2Proof.Machine
end

section
/-! PROOFS. What a machine does rests on its state and its host, not on its past (41_sequencer.md R134). A machine is compared
with itself after a longer history: every operation adds its events behind, so the longer history stays in front, and the two
do the same. -/

namespace Sys2Proof.Machine

/-- `s` after the events `past` that came before its own. -/
def State.withPast (past : List Event) (s : State) : State := { s with log := past ++ s.log }

@[simp] theorem onNext_next (f : State → State) (s : State) : onNext f (.next s) = .next (f s) := rfl

/-- The dispatch step as one equation (R126). -/
theorem State.dispatchStep_eq (s : State) : s.dispatchStep = onNext State.afterDispatch (exec s.fetched s) := by
  unfold State.dispatchStep
  cases exec s.fetched s <;> rfl

section
variable (past : List Event) (s : State)

@[simp] theorem State.withPast_log : (s.withPast past).log = past ++ s.log := rfl
@[simp] theorem State.withPast_pc : (s.withPast past).pc = s.pc := rfl
@[simp] theorem State.withPast_jt : (s.withPast past).jt = s.jt := rfl
@[simp] theorem State.withPast_progLen : (s.withPast past).progLen = s.progLen := rfl
@[simp] theorem State.withPast_phase : (s.withPast past).phase = s.phase := rfl
@[simp] theorem State.withPast_stk : (s.withPast past).stk = s.stk := rfl
@[simp] theorem State.withPast_scan : (s.withPast past).scan = s.scan := rfl
@[simp] theorem State.withPast_progMax : (s.withPast past).progMax = s.progMax := rfl
@[simp] theorem State.withPast_progAt : (s.withPast past).progAt = s.progAt := rfl
@[simp] theorem State.withPast_fetched : (s.withPast past).fetched = s.fetched := rfl
@[simp] theorem State.withPast_waiting : (s.withPast past).waiting = s.waiting := rfl
@[simp] theorem State.withPast_cmdReady : (s.withPast past).cmdReady = s.cmdReady := rfl
@[simp] theorem State.withPast_writtenBelow (n : Nat) : (s.withPast past).writtenBelow n = s.writtenBelow n := rfl
@[simp] theorem State.withPast_hostMove : (s.withPast past).hostMove = s.hostMove := rfl
@[simp] theorem offerEvents_withPast : offerEvents (s.withPast past) = offerEvents s := rfl
@[simp] theorem requestEvents_withPast : requestEvents (s.withPast past) = requestEvents s := rfl

theorem State.record_withPast (es : List Event) : (s.withPast past).record es = (s.record es).withPast past := by
  simp [State.withPast, State.record]

theorem State.raise_withPast (e : StructuralError) : (s.withPast past).raise e = (s.raise e).withPast past := by
  simp [State.withPast, State.raise, State.complete]

theorem State.endRun_withPast : (s.withPast past).endRun = s.endRun.withPast past := by
  simp [State.withPast, State.endRun, State.complete]

theorem State.resetCommand_withPast : (s.withPast past).resetCommand = s.resetCommand.withPast past := by
  simp [State.withPast, State.resetCommand]

theorem State.hardwareReset_withPast (rest : Feed HostMove) :
    (s.withPast past).hardwareReset rest = (s.hardwareReset rest).withPast past := by
  simp [State.withPast, State.hardwareReset]

theorem State.afterDispatch_withPast : (s.withPast past).afterDispatch = s.afterDispatch.withPast past := by
  unfold State.afterDispatch
  rw [State.withPast_waiting]
  cases s.waiting <;> rfl

theorem State.resolveStep_withPast : (s.withPast past).resolveStep = s.resolveStep.withPast past := by
  simp only [State.resolveStep, State.withPast_scan, State.withPast_progLen, State.withPast_progAt, State.withPast_stk,
    State.withPast_jt, State.raise_withPast]
  split
  · cases scanChar (s.progAt s.scan) s.scan s.stk s.jt <;> rfl
  · cases s.stk <;> rfl

theorem State.acceptExecute_withPast (n : Nat) :
    (s.withPast past).acceptExecute n = onNext (State.withPast past) (s.acceptExecute n) := by
  unfold State.acceptExecute
  rw [State.withPast_progMax, State.withPast_writtenBelow]
  cases fitsProgMax s.progMax n with
  | false => rfl
  | true =>
    cases s.writtenBelow n with
    | false => rfl
    | true => simp only [onNext, Bool.not_true, Bool.false_eq_true, if_false, ← State.record_withPast]; rfl

theorem State.writeProgram_withPast (a : Nat) (c : Code) :
    (s.withPast past).writeProgram a c = onNext (State.withPast past) (s.writeProgram a c) := by
  unfold State.writeProgram
  rw [State.withPast_progMax]
  cases isProgAddress s.progMax a <;> rfl

/-- No instruction looks at the past (R134). -/
theorem exec_withPast (i : Instr) : exec i (s.withPast past) = onNext (State.withPast past) (exec i s) := by
  cases i with
  | out =>
    cases ha : s.hostAccept.1 with
    | true =>
      rw [exec_out_delivers ha, exec_out_delivers (s := s.withPast past) ha]
      simp only [State.withPast_log, offerEvents_withPast, List.append_assoc]; rfl
    | false =>
      rw [exec_out_waits ha, exec_out_waits (s := s.withPast past) ha]
      simp only [State.withPast_log, offerEvents_withPast, List.append_assoc]; rfl
  | inp =>
    cases ha : s.hostAnswer.1 with
    | some a =>
      rw [exec_inp_answered ha, exec_inp_answered (s := s.withPast past) ha]
      simp only [State.withPast_log, requestEvents_withPast, List.append_assoc]; rfl
    | none =>
      rw [exec_inp_waits ha, exec_inp_waits (s := s.withPast past) ha]
      simp only [State.withPast_log, requestEvents_withPast, List.append_assoc]; rfl
  | loopClose =>
    by_cases hc : s.cell = 0#8
    · rw [exec_loopClose_falls hc, exec_loopClose_falls (s := s.withPast past) hc]; rfl
    · cases hj : mapGet s.jt s.pc with
      | some o => rw [exec_loopClose_jumps hc hj, exec_loopClose_jumps (s := s.withPast past) hc hj]; rfl
      | none => rw [exec_loopClose_misses hc hj, exec_loopClose_misses (s := s.withPast past) hc hj]; rfl
  | _ => rfl

theorem State.dispatchStep_withPast :
    (s.withPast past).dispatchStep = onNext (State.withPast past) s.dispatchStep := by
  rw [State.dispatchStep_eq, State.dispatchStep_eq, State.withPast_fetched, exec_withPast]
  cases exec s.fetched s with
  | next u => simp [State.afterDispatch_withPast]
  | fault => rfl
  | refused => rfl

theorem State.runEngine_withPast : (s.withPast past).runEngine = onNext (State.withPast past) s.runEngine := by
  simp only [State.runEngine, State.withPast_phase, State.withPast_pc, State.withPast_progLen, State.resolveStep_withPast,
    State.dispatchStep_withPast, State.endRun_withPast]
  split
  · rfl
  · rfl
  · split
    · rfl
    · split <;> rfl

/-- No step looks at the past, the resets and the stops among them (R134, R253). -/
theorem step_withPast : step (s.withPast past) = onNext (State.withPast past) (step s) := by
  obtain ⟨m, rest, hm⟩ : ∃ m rest, s.hostMove = (m, rest) := ⟨_, _, rfl⟩
  have engine (f : Feed HostMove) :
      ((s.withPast past).tick f).runEngine = onNext (State.withPast past) (s.tick f).runEngine :=
    State.runEngine_withPast past (s.tick f)
  unfold step State.sequencerStep
  rw [State.withPast_hostMove, hm, State.withPast_cmdReady]
  cases m with
  | hardwareReset => exact congrArg Host.Outcome.next (State.hardwareReset_withPast past s rest)
  | pause => exact engine _
  | progWrite a c =>
    cases s.cmdReady with
    | true => exact State.writeProgram_withPast past (s.tick rest) a c
    | false => exact engine _
  | execute n =>
    cases s.cmdReady with
    | true => exact State.acceptExecute_withPast past (s.tick rest) n
    | false => exact engine _
  | reset =>
    cases s.cmdReady with
    | true => exact congrArg Host.Outcome.next (State.resetCommand_withPast past (s.tick rest))
    | false => exact engine _

/-- Nor does a run of any number of steps. -/
theorem run_withPast (k : Nat) :
    core.run k (s.withPast past) = onNext (State.withPast past) (core.run k s) := by
  induction k generalizing s with
  | zero => rfl
  | succ k ih =>
    have hstep : core.step (s.withPast past) = onNext (State.withPast past) (core.step s) := step_withPast past s
    simp only [Host.Core.run, hstep]
    cases core.step s with
    | next u => exact ih u
    | fault => rfl
    | refused => rfl

end

theorem onNext_eq_next {t : State} {f : State → State} {o : Host.Outcome State Fault Refusal} (h : onNext f o = .next t) :
    ∃ u, o = .next u ∧ t = f u := by
  cases o with
  | next u => cases h; exact ⟨u, rfl, rfl⟩
  | fault => cases h
  | refused => cases h

/-- A machine is the one with no history, with its own history before it. -/
theorem State.eq_withPast_forget (s : State) : s = State.withPast s.log { s with log := [] } := by
  simp [State.withPast]

/-- Settles O54: both machines are the one with no history, each after its own past, and what that one adds both add. -/
theorem runsDependOnlyOnTheState : Obligations.RunsDependOnlyOnTheState := by
  intro k s t s' hsame hrun
  rw [s.eq_withPast_forget, run_withPast] at hrun
  obtain ⟨u, hu, rfl⟩ := onNext_eq_next hrun
  have ht : t = State.withPast t.log { s with log := [] } := by rw [hsame]; exact t.eq_withPast_forget
  refine ⟨u.withPast t.log, u.log, ?_, rfl, rfl, rfl⟩
  calc core.run k t = core.run k (State.withPast t.log { s with log := [] }) := congrArg _ ht
    _ = .next (u.withPast t.log) := by rw [run_withPast, hu]; rfl

end Sys2Proof.Machine
end

section
/-! PROOFS. The sequencer (41_sequencer.md): RESET and `Execute(source)` at the ports, the dispatch loop and the end of a run,
the waits of `.` and `,`, and the transitions of PHASE. -/

namespace Sys2Proof.Machine

variable {s t u : State}

/-- The machine's first step, and then the others. -/
theorem run_succ (h : step s = .next t) (k : Nat) : core.run (k + 1) s = core.run k t :=
  run_succ_of_step core h k

/-! ### Commands -/

/-- Settles O7: RESET overwrites the engine's state, and its two events move no stream. -/
theorem resetCommandZeroesTheEngine : Obligations.ResetCommandZeroesTheEngine := by
  intro s rest hp hm
  have hlog : (s.tick rest).resetCommand.log = s.log ++ [.reset, .resetDone] := rfl
  exact ⟨_, step_reset hp hm, tapeGet_nil, rfl, rfl, mapGet_nil, rfl, hp, rfl, hlog, rfl, rfl,
    State.inPosition_grow hlog, by simp [State.outHistory_grow hlog, Event.delivered], rfl⟩

/-! ### Writing a source -/

/-- The program memory after the characters `cs` are written from address `a` on (R193). -/
def storeFrom (prog : List (Nat × Code)) : List Code → Nat → List (Nat × Code)
  | [], _ => prog
  | c :: cs, a => storeFrom (mapInsert prog a c) cs (a + 1)

theorem mapGet_storeFrom_of_lt {cs : List Code} {a i : Nat} (prog : List (Nat × Code)) (hi : i < a) :
    mapGet (storeFrom prog cs a) i = mapGet prog i := by
  induction cs generalizing prog a with
  | nil => rfl
  | cons c cs ih => rw [storeFrom, ih _ (by omega), mapGet_mapInsert, if_neg hi.ne]

/-- Each character stands at its own address. -/
theorem mapGet_storeFrom_add {cs : List Code} {k : Nat} (prog : List (Nat × Code)) (a : Nat) (hk : k < cs.length) :
    mapGet (storeFrom prog cs a) (a + k) = some cs[k] := by
  induction cs generalizing prog a k with
  | nil => simp at hk
  | cons c cs ih =>
    rw [storeFrom]
    cases k with
    | zero => rw [mapGet_storeFrom_of_lt _ (by omega), mapGet_mapInsert]; simp
    | succ k =>
      have haddr : a + (k + 1) = a + 1 + k := by omega
      rw [haddr, ih _ _ (Nat.lt_of_succ_lt_succ hk), List.getElem_cons_succ]

theorem isProgAddress_of_lt {progMax : Option Nat} {a n : Nat} (h : fitsProgMax progMax n = true) (ha : a < n) :
    isProgAddress progMax a = true := by
  cases progMax with
  | none => rfl
  | some m =>
    have hn : n ≤ m := by simpa using h
    simpa [isProgAddress] using ha.trans_le hn

/-- In IDLE the host's writes of `cs` take one step each, and leave them in the program memory and nothing else changed but
the DONE pulse (R193). -/
theorem run_progWrites {cs : List Code} {a : Nat} {items : List HostMove} {r : Rest HostMove} (hp : s.phase = .idle)
    (hm : s.moves = ⟨progWritesFrom cs a ++ items, r⟩) (hf : fitsProgMax s.progMax (a + cs.length) = true) :
    ∃ done, ∀ k, core.run (k + cs.length) s =
      core.run k { s with prog := storeFrom s.prog cs a, done := done, moves := ⟨items, r⟩ } := by
  induction cs generalizing s a with
  | nil =>
    have hmoves : s.moves = ⟨items, r⟩ := hm
    exact ⟨s.done, fun k => by rw [← hmoves]; rfl⟩
  | cons c cs ih =>
    have hmove : s.hostMove = (.progWrite a c, ⟨progWritesFrom cs (a + 1) ++ items, r⟩) := by
      rw [State.hostMove, hm]; rfl
    have hlen : a + (c :: cs).length = a + 1 + cs.length := by simp only [List.length_cons]; omega
    have hstep := step_progWrite hp hmove (isProgAddress_of_lt hf (by rw [hlen]; omega))
    obtain ⟨done, hrun⟩ := ih
      (s := { s.tick ⟨progWritesFrom cs (a + 1) ++ items, r⟩ with prog := mapInsert s.prog a c })
      hp rfl (by rw [← hlen]; exact hf)
    exact ⟨done, fun k => (run_succ hstep (k + cs.length)).trans (hrun k)⟩

theorem writtenBelow_of_stored {src : List Code} (h : ∀ i (hi : i < src.length), mapGet s.prog i = some src[i]) :
    s.writtenBelow src.length = true := by
  simp only [State.writtenBelow, List.all_eq_true, List.mem_range]
  intro i hi
  simp [h i hi]

/-- A program memory that holds `src` from address 0 on gives it as the source of its length. -/
theorem source_eq_of_stored {src : List Code} (hl : s.progLen = src.length)
    (h : ∀ i (hi : i < src.length), mapGet s.prog i = some src[i]) : s.source = src := by
  refine List.ext_getElem (by simp [hl]) fun i _ hi => ?_
  simp [State.source, State.progAt, h i hi]

/-- EXECUTE of a source that stands in the program memory (R121). -/
theorem step_execute_stored {src : List Code} {rest : Feed HostMove} (hp : s.phase = .idle)
    (hm : s.hostMove = (.execute src.length, rest)) (hf : fitsProgMax s.progMax src.length = true)
    (h : ∀ i (hi : i < src.length), mapGet s.prog i = some src[i]) :
    step s = .next { s.tick rest with
      progLen := src.length, pc := 0, jt := [], stk := [], scan := 0, phase := .resolve, log := s.log ++ [.execute src] } := by
  obtain ⟨u, hu, hstep⟩ := step_execute hp hm hf (writtenBelow_of_stored h)
  have hsource : u.source = src := source_eq_of_stored (by rw [hu]) (by rw [hu]; exact h)
  rw [hstep, hsource, hu]
  rfl

/-- Settles O9: the writes leave the source in the program memory from address 0 on, so that the launch is accepted and its
source is this one. -/
theorem executeOfASourceStartsItsRun : Obligations.ExecuteOfASourceStartsItsRun := by
  intro s src items r hp hm hf
  have hmoves : s.moves = ⟨progWritesFrom src 0 ++ (.execute src.length :: items), r⟩ := by
    rw [hm, movesOfSource, List.append_assoc]; rfl
  obtain ⟨done, hwrites⟩ := run_progWrites hp hmoves (by rw [Nat.zero_add]; exact hf)
  have hstored (i : Nat) (hi : i < src.length) : mapGet (storeFrom s.prog src 0) i = some src[i] := by
    simpa using mapGet_storeFrom_add s.prog 0 hi
  have hstep := step_execute_stored (rest := ⟨items, r⟩) (s := { s with
    prog := storeFrom s.prog src 0, done := done, moves := ⟨.execute src.length :: items, r⟩ }) hp rfl hf hstored
  have hrun := (hwrites 1).trans (run_succ hstep 0)
  rw [Nat.add_comm] at hrun
  exact ⟨_, hrun, source_eq_of_stored rfl hstored, rfl, rfl, mapGet_nil, rfl, rfl, rfl, rfl, rfl, rfl,
    by simp [State.outHistory, Event.delivered], rfl⟩

/-! ### The dispatch loop -/

/-- Settles O20: the fetched character decodes to a well-formed instruction, and the dispatch step is its meaning and the
increment. -/
theorem stepRunsTheDecodedInstruction : Obligations.StepRunsTheDecodedInstruction := by
  intro s i hp hl hr hd
  obtain rfl : s.fetched = i := congrArg Prod.fst (Except.ok.inj hd)
  refine ⟨decodeChar_wellFormed _, ?_⟩
  calc step s = (s.tick s.movesWhileBusy).runEngine := step_while_busy (by simp [hp]) hr
    _ = (s.tick s.movesWhileBusy).dispatchStep := State.runEngine_dispatch hp hl
    _ = _ := State.dispatchStep_eq _

/-- In RUN at PROG_LEN the step ends the run (R127). -/
theorem step_endRun (hp : s.phase = .run) (he : s.pc = s.progLen) (hr : s.rstAsserted = false) :
    step s = .next (s.tick s.movesWhileBusy).endRun :=
  (step_while_busy (by simp [hp]) hr).trans (State.runEngine_end hp he)

/-- Settles O21: the step at PROG_LEN is the end of the run, and a dispatch keeps the phase. -/
theorem runEndsAtTheProgramLength : Obligations.RunEndsAtTheProgramLength := by
  refine ⟨fun s hp he hr => ?_, fun s t hp hr h hleft => ?_⟩
  · have hlog : (s.tick s.movesWhileBusy).endRun.log = s.log ++ [.completed ⟨.ok, 0⟩] := rfl
    exact ⟨_, step_endRun hp he hr, rfl, rfl, hlog, rfl, he, rfl, rfl, rfl,
      by simp [State.outHistory_grow hlog, Event.delivered], rfl⟩
  · cases step_transition h with
    | hardwareReset rest hm => simp [State.rstAsserted_of_hardwareReset hm] at hr
    | endRun _ _ he => exact he
    | dispatch u _ _ _ hu => exact absurd ((exec_keepsAllBut hu).phase.trans hp) hleft
    | startRun => exact absurd rfl hleft
    | _ => simp_all -- the others start in IDLE or RESOLVE

/-- Settles O22: the scan of nothing succeeds with no entry, and PC is at PROG_LEN from the start. -/
theorem emptySourceEndsAtOnce : Obligations.EmptySourceEndsAtOnce := by
  intro s hp hm
  have hmove : s.hostMove = (.execute 0, noMoves) := by rw [State.hostMove, hm, feedNext_push]
  obtain ⟨u, hu, hstart⟩ : ∃ u, u = { s.tick noMoves with
      progLen := 0, pc := 0, jt := [], stk := [], scan := 0, phase := .resolve, log := s.log ++ [.execute []] } ∧
      step s = .next u := ⟨_, rfl, step_execute_stored (src := []) hp hmove (fitsProgMax_zero _) (by simp)⟩
  have hscan : Scanning u := by rw [hu]; exact ⟨rfl, rfl, rfl⟩
  have hresolve : resolve u.source = .ok [] := by rw [hu]; rfl
  have hverdict : step u = .next (u.resolved (.ok [])) := hresolve ▸ hscan.step_at_end (by rw [hu])
  have hend := step_endRun (s := u.resolved (.ok [])) rfl (by rw [hu]; rfl) rfl
  have hrun : core.run 3 s = .next _ :=
    (run_succ hstart 2).trans ((run_succ hverdict 1).trans (run_succ hend 0))
  subst hu
  exact ⟨_, hrun, rfl, rfl, by simp [State.resolved], rfl, rfl, rfl, rfl, rfl⟩

/-! ### Waiting -/

/-- Until the host accepts its unit, a `.` changes its port only (R132, R198). -/
theorem exec_out_waits_frame (h : s.hostAccept.1 = false) : ∃ t, exec .out s = .next t ∧ t.outOffer = some s.cell ∧
    t.outHistory = s.outHistory ∧ t.tape = s.tape ∧ t.waiting = true ∧ KeepsAllBut [.outOffer, .accept, .log] s t := by
  have hexec := exec_out_waits h
  exact ⟨_, hexec, rfl, by simp [State.outHistory], rfl, by simp [State.waiting], exec_keepsAllBut hexec⟩

/-- Until the host answers, a `,` changes its port only (R132, R197). -/
theorem exec_inp_waits_frame (h : s.hostAnswer.1 = none) : ∃ t, exec .inp s = .next t ∧ t.inReq = true ∧
    t.inPosition = s.inPosition ∧ t.tape = s.tape ∧ t.waiting = true ∧ KeepsAllBut [.inReq, .input, .log] s t := by
  refine ⟨_, exec_inp_waits h, rfl, by simp [State.inPosition], rfl, rfl, ?_⟩
  constructor <;> simp

/-- The step of an instruction that waits is its effect alone, in which PC and pointer stay (R132). -/
theorem step_waits (hp : s.phase = .run) (hl : s.pc < s.progLen) (hr : s.rstAsserted = false)
    (hi : s.fetched = .out ∨ s.fetched = .inp) (hu : exec s.fetched (s.tick s.movesWhileBusy) = .next u)
    (hw : u.waiting = true) : step s = .next u ∧ u.pc = s.pc ∧ u.phase = .run ∧ u.ptr = s.ptr ∧ u.jt = s.jt := by
  have hstep := step_dispatch hp hl hr hu
  rw [State.afterDispatch_of_waiting hw] at hstep
  have hk := exec_keepsAllBut hu
  have hpc : Part.pc ∉ partsWritten s.fetched := by obtain h | h := hi <;> simp [h, partsWritten]
  have hptr : Part.ptr ∉ partsWritten s.fetched := by obtain h | h := hi <;> simp [h, partsWritten]
  exact ⟨hstep, hk.pc.resolve_left hpc, hk.phase.trans hp, hk.ptr.resolve_left hptr, hk.jt⟩

/-- Settles O31: a waiting instruction moves its own port, and neither delivers nor takes anything. -/
theorem waitingChangesOnlyThePort : Obligations.WaitingChangesOnlyThePort := by
  refine ⟨fun s => exec_out_waits_frame, fun s => exec_inp_waits_frame, fun s hp hl hr hwait => ?_⟩
  obtain ⟨hf, ha⟩ | ⟨hf, ha⟩ := hwait
  · obtain ⟨t, ht, -, hout, htape, hw, -⟩ := exec_out_waits_frame (s := s.tick s.movesWhileBusy) ha
    obtain ⟨hstep, hpc, hphase, hptr, hjt⟩ := step_waits hp hl hr (.inl hf) (hf ▸ ht) hw
    have hin : t.inPosition = s.inPosition := (exec_streams ht).2.resolve_right (by simp)
    exact ⟨t, hstep, hpc, hphase, htape, hptr, hjt, hout, hin⟩
  · obtain ⟨t, ht, -, hin, htape, hw, -⟩ := exec_inp_waits_frame (s := s.tick s.movesWhileBusy) ha
    obtain ⟨hstep, hpc, hphase, hptr, hjt⟩ := step_waits hp hl hr (.inr hf) (hf ▸ ht) hw
    have hout : t.outHistory = s.outHistory := (exec_streams ht).1.resolve_right (by simp)
    exact ⟨t, hstep, hpc, hphase, htape, hptr, hjt, hout, hin⟩

/-! ### The phase -/

theorem StructuralError.report_kind_ne_ok (e : StructuralError) : e.report.kind ≠ .ok := by
  cases e <;> simp [StructuralError.report, StructuralError.kind]

/-- Settles O45, transition by transition. -/
theorem phaseMovesOnlyAsListed : Obligations.PhaseMovesOnlyAsListed := by
  intro s t h
  cases step_transition h with
  | hardwareReset rest hm => exact .inl ⟨State.rstAsserted_of_hardwareReset hm, rfl⟩
  | execute n rest src hm hp => exact .inr (.inl ⟨hp, ⟨n, by rw [hm]⟩, rfl⟩)
  | progWrite a c rest hm hp => exact .inr (.inr (.inl ⟨hp, by simp [hm], hp⟩))
  | reset rest hm hp => exact .inr (.inr (.inl ⟨hp, by simp [hm], hp⟩))
  | rest hm hp => exact .inr (.inr (.inl ⟨hp, by simp [hm], hp⟩))
  | scans stk jt _ hp hl => exact .inr (.inr (.inr (.inl ⟨hp, hl, hp, rfl⟩)))
  | scanFails e _ hp => exact .inr (.inr (.inr (.inr (.inl ⟨hp, rfl, e.report_kind_ne_ok⟩))))
  | openLeft o below _ hp => exact .inr (.inr (.inr (.inr (.inl ⟨hp, rfl, StructuralError.report_kind_ne_ok _⟩))))
  | startRun _ hp hl hs => exact .inr (.inr (.inr (.inr (.inr (.inl ⟨hp, hl, hs, rfl⟩)))))
  | dispatch u _ hp hl hu =>
    have hphase : u.phase = .run := (exec_keepsAllBut hu).phase.trans hp
    exact .inr (.inr (.inr (.inr (.inr (.inr (.inl ⟨hp, hl, hphase⟩))))))
  | endRun _ hp he => exact .inr (.inr (.inr (.inr (.inr (.inr (.inr ⟨hp, he, rfl, rfl⟩))))))

/-! ### Every step of a run is enabled -/

theorem State.hostMove_of_rstAsserted (h : s.rstAsserted = true) : ∃ rest, s.hostMove = (.hardwareReset, rest) := by
  obtain ⟨m, rest, hm⟩ : ∃ m rest, s.hostMove = (m, rest) := ⟨_, _, rfl⟩
  rw [State.rstAsserted, hm] at h
  cases m with
  | hardwareReset => exact ⟨rest, hm⟩
  | _ => cases h

/-- R130: a dispatch of a machine that meets the invariant answers a next state: the one lookup that could fail, that of a
taken `]`, finds its entry. -/
theorem Inv.exec_fetched_next (h : Inv s) (hp : s.phase = .run) (hl : s.pc < s.progLen) :
    ∃ u, exec s.fetched s = .next u := by
  obtain hnext | ⟨hclose, -, hmiss, -⟩ := exec_next_or_misses s.fetched s
  · exact hnext
  · have hchar : s.progAt s.pc = 0x5D := (decodeChar_eq_loopClose_iff _).1 hclose
    obtain ⟨o, ho, -⟩ := jumpLookupCannotMiss s h hp s.pc hl hchar
    rw [hmiss] at ho
    cases ho

/-- Settles O41: PC stays within the Program, and no dispatch misses its table entry. -/
theorem everyRunStepIsEnabled : Obligations.EveryRunStepIsEnabled := by
  intro s h hbusy
  cases hr : s.rstAsserted with
  | true =>
    obtain ⟨rest, hm⟩ := State.hostMove_of_rstAsserted hr
    exact ⟨_, step_hardwareReset hm⟩
  | false =>
    cases hp : s.phase with
    | idle => exact absurd hp hbusy
    | resolve => exact ⟨_, step_resolve hp hr⟩
    | run =>
      obtain hl | he := h.bounds.pc.lt_or_eq
      · obtain ⟨u, hu⟩ := (h.tick s.movesWhileBusy).exec_fetched_next hp hl
        exact ⟨_, step_dispatch hp hl hr hu⟩
      · exact ⟨_, step_endRun hp he hr⟩

end Sys2Proof.Machine
end

section
/-! PROOFS. The pointer (42_pointer.md): RIGHT and LEFT on a circular tape, k RIGHTs in a row, and what the two leave alone. -/

namespace Sys2Proof.Machine

theorem exec_right (s : State) : exec .right s = .next { s with ptr := ptrRight s.ptr } := rfl

theorem exec_left (s : State) : exec .left s = .next { s with ptr := ptrLeft s.ptr } := rfl

/-- R140's own words for `ptrRight`, beside the sum of `ptrRight_val`. -/
theorem ptrRight_val_eq_ite (p : Fin Config.tapeLen) :
    (ptrRight p).val = if p.val = Config.tapeLen - 1 then 0 else p.val + 1 := by
  unfold ptrRight
  split <;> rfl

/-- R141's own words for `ptrLeft`, beside the sum of `ptrLeft_val`. -/
theorem ptrLeft_val_eq_ite (p : Fin Config.tapeLen) :
    (ptrLeft p).val = if p.val = 0 then Config.tapeLen - 1 else p.val - 1 := by
  unfold ptrLeft
  split <;> rfl

/-- TAPE_LEN cells further, circularly, is the same cell. -/
theorem ptr_add_tapeLen_mod (p : Fin Config.tapeLen) : (p.val + Config.tapeLen) % Config.tapeLen = p.val := by
  rw [Nat.add_mod_right, Nat.mod_eq_of_lt p.isLt]

@[simp] theorem ptrLeft_ptrRight (p : Fin Config.tapeLen) : ptrLeft (ptrRight p) = p := by
  apply Fin.ext
  rw [ptrLeft_val, ptrRight_val, Nat.mod_add_mod, Nat.add_assoc, Nat.add_sub_cancel' Config.tapeLen_pos,
    ptr_add_tapeLen_mod]

@[simp] theorem ptrRight_ptrLeft (p : Fin Config.tapeLen) : ptrRight (ptrLeft p) = p := by
  apply Fin.ext
  rw [ptrRight_val, ptrLeft_val, Nat.mod_add_mod, Nat.add_assoc, Nat.sub_add_cancel Config.tapeLen_pos,
    ptr_add_tapeLen_mod]

theorem ptrRight_iterate_val (k : Nat) (p : Fin Config.tapeLen) :
    (ptrRight^[k] p).val = (p.val + k) % Config.tapeLen := by
  induction k with
  | zero => exact (Nat.mod_eq_of_lt p.isLt).symm
  | succ k ih => rw [Function.iterate_succ_apply', ptrRight_val, ih, Nat.mod_add_mod, Nat.add_assoc]

theorem ptrRight_iterate_tapeLen (p : Fin Config.tapeLen) : ptrRight^[Config.tapeLen] p = p :=
  Fin.ext ((ptrRight_iterate_val _ p).trans (ptr_add_tapeLen_mod p))

theorem execTimes_right (k : Nat) (s : State) :
    execTimes .right k s = .next { s with ptr := ptrRight^[k] s.ptr } := by
  induction k generalizing s with
  | zero => rfl
  | succ k ih => exact ih { s with ptr := ptrRight s.ptr }

/-- The frame of a pointer move, however many cells it goes. -/
theorem keepsAllBut_ptr (s : State) (p : Fin Config.tapeLen) : KeepsAllBut [.ptr] s { s with ptr := p } := by
  constructor <;> simp

/-- Settles O25: the moves are inverse on the pointer, and k RIGHTs iterate `ptrRight`. -/
theorem pointerMovesFormARing : Obligations.PointerMovesFormARing := by
  refine ⟨fun s => ⟨_, exec_right s, ?_⟩, fun s => ⟨_, exec_left s, ?_⟩, fun k s => ?_⟩
  · simp only [exec_left, ptrLeft_ptrRight]
  · simp only [exec_right, ptrRight_ptrLeft]
  · exact ⟨_, execTimes_right k s, ptrRight_iterate_val k s.ptr, Fin.isLt _, keepsAllBut_ptr s _⟩

/-- Settles O23: `ptrRight` in both of its forms, and iterated once round the tape. -/
theorem rightMovesThePointerCircularly : Obligations.RightMovesThePointerCircularly := by
  refine ⟨by decide, fun s => ?_, fun s => ?_⟩
  · exact ⟨_, exec_right s, ptrRight_val_eq_ite s.ptr, ptrRight_val s.ptr, keepsAllBut_ptr s _, rfl⟩
  · rw [execTimes_right, ptrRight_iterate_tapeLen]

/-- Settles O24: `ptrLeft` in both of its forms. -/
theorem leftMovesThePointerCircularly : Obligations.LeftMovesThePointerCircularly := by
  refine ⟨by decide, fun s => ⟨_, exec_left s, ptrLeft_val_eq_ite s.ptr, ?_, keepsAllBut_ptr s _, rfl⟩⟩
  rw [Nat.add_sub_assoc Config.tapeLen_pos]
  exact ptrLeft_val s.ptr

end Sys2Proof.Machine
end

section
/-! PROOFS. Cell arithmetic (43_cell_arith.md): `+` and `-` on a cell modulo 256, k INCs in a row, and what the two leave
alone. A tape may list a cell more than once or list a 0, so k INCs are followed by what the tape reads, not by its list; on
a canonical tape the two agree (`canonicalTapesReadingAlikeAreEqual`). -/

namespace Sys2Proof.Machine

variable {s : State}

theorem exec_inc (s : State) : exec .inc s = .next (s.setCell (cellInc s.cell)) := rfl

theorem exec_dec (s : State) : exec .dec s = .next (s.setCell (cellDec s.cell)) := rfl

/-! ### The cell's value -/

theorem cellInc_toNat (v : Byte) : (cellInc v).toNat = (v.toNat + 1) % 256 := by
  rw [cellInc_eq, BitVec.toNat_add]
  rfl

theorem cellDec_toNat (v : Byte) : (cellDec v).toNat = (v.toNat + 255) % 256 := by
  rw [cellDec_eq, BitVec.toNat_sub, Nat.add_comm]
  rfl

/-- R150's own words for `cellInc`, beside the sum of `cellInc_toNat`. -/
theorem cellInc_toNat_eq_ite (v : Byte) : (cellInc v).toNat = if v.toNat = 255 then 0 else v.toNat + 1 := by
  have hv : v.toNat < 256 := v.isLt
  rw [cellInc_toNat]
  split <;> omega

/-- R151's own words for `cellDec`, beside the sum of `cellDec_toNat`. -/
theorem cellDec_toNat_eq_ite (v : Byte) : (cellDec v).toNat = if v.toNat = 0 then 255 else v.toNat - 1 := by
  have hv : v.toNat < 256 := v.isLt
  rw [cellDec_toNat]
  split <;> omega

@[simp] theorem cellDec_cellInc (v : Byte) : cellDec (cellInc v) = v := by
  rw [cellDec_eq, cellInc_eq, BitVec.add_sub_cancel]

@[simp] theorem cellInc_cellDec (v : Byte) : cellInc (cellDec v) = v := by
  rw [cellInc_eq, cellDec_eq, BitVec.sub_add_cancel]

/-! ### What a cell write leaves alone -/

/-- The frame of a change of the tape alone. -/
theorem keepsAllBut_tape {parts : List Part} {m : List Host.Cell}
    (h : ∀ a, (.cell ∈ parts ∧ a = s.ptr.val) ∨ tapeGet m a = tapeGet s.tape a) :
    KeepsAllBut parts s { s with tape := m } := by
  constructor
  case tape => exact h
  all_goals simp

theorem State.setCell_keepsAllBut (s : State) (v : Byte) : KeepsAllBut [.cell] s (s.setCell v) :=
  keepsAllBut_tape fun a => (tapeGet_tapeSet_or s.tape s.ptr.val v a).imp_left fun ha => ⟨by simp, ha⟩

/-- A cell written and written back reads as before, and so does every other cell. -/
theorem tapeGet_tapeSet_back (m : List Host.Cell) (a : Nat) (v : Byte) (b : Nat) :
    tapeGet (tapeSet (tapeSet m a v) a (tapeGet m a)) b = tapeGet m b := by
  rw [tapeGet_tapeSet, tapeGet_tapeSet]
  by_cases hb : b = a <;> simp [hb]

/-- On a canonical tape the very same list is given back, since its reads determine it. -/
theorem Memory.tapeSet_tapeSet_back {m : List Host.Cell} {a : Nat} (v : Byte) (ha : a < Config.tapeLen)
    (h : Memory.wf m = true) : tapeSet (tapeSet m a v) a (tapeGet m a) = m :=
  canonicalTapesReadingAlikeAreEqual _ _ (Memory.wf_tapeSet _ ha (Memory.wf_tapeSet v ha h)) h
    (tapeGet_tapeSet_back m a v)

theorem State.setCell_back_keepsAll (s : State) (v : Byte) : KeepsAllBut [] s ((s.setCell v).setCell s.cell) :=
  keepsAllBut_tape fun a => .inr (tapeGet_tapeSet_back s.tape s.ptr.val v a)

theorem State.setCell_back_eq (v : Byte) (h : Memory.wf s.tape = true) : (s.setCell v).setCell s.cell = s :=
  congrArg (fun m => { s with tape := m }) (Memory.tapeSet_tapeSet_back v s.ptr.isLt h)

/-! ### INCs in a row -/

/-- k INCs change the tape alone, and of what it reads the current cell alone. -/
theorem execTimes_inc (k : Nat) (s : State) : ∃ m, execTimes .inc k s = .next { s with tape := m } ∧
    (tapeGet m s.ptr.val).toNat = (s.cell.toNat + k) % 256 ∧
    ∀ a, a = s.ptr.val ∨ tapeGet m a = tapeGet s.tape a := by
  induction k generalizing s with
  | zero => exact ⟨s.tape, rfl, (Nat.mod_eq_of_lt s.cell.isLt).symm, fun _ => .inr rfl⟩
  | succ k ih =>
    obtain ⟨m, hrun, hcell, hother⟩ := ih (s.setCell (cellInc s.cell))
    refine ⟨m, hrun, ?_, fun a => ?_⟩
    · calc (tapeGet m s.ptr.val).toNat = ((s.setCell (cellInc s.cell)).cell.toNat + k) % 256 := hcell
        _ = (s.cell.toNat + (k + 1)) % 256 := by
          rw [State.setCell_cell, cellInc_toNat, Nat.mod_add_mod, Nat.add_assoc, Nat.add_comm 1 k]
    · obtain ha | ha := hother a
      · exact .inl ha
      · exact (tapeGet_tapeSet_or s.tape s.ptr.val _ a).imp_right ha.trans

/-- R150's corner case: 256 INCs give back what every cell read. -/
theorem execTimes_inc_256 (s : State) : ∃ m, execTimes .inc 256 s = .next { s with tape := m } ∧
    ∀ a, tapeGet m a = tapeGet s.tape a := by
  obtain ⟨m, hrun, hcell, hother⟩ := execTimes_inc 256 s
  refine ⟨m, hrun, fun a => ?_⟩
  obtain rfl | ha := hother a
  · apply BitVec.eq_of_toNat_eq
    rw [hcell, Nat.add_mod_right, Nat.mod_eq_of_lt s.cell.isLt, State.cell]
  · exact ha

/-- Settles O28: k INCs by `execTimes_inc`; INC and DEC write back the value that stood in the cell. -/
theorem cellMovesFormARing : Obligations.CellMovesFormARing := by
  refine ⟨fun k s => ?_, fun s => ⟨_, _, exec_inc s, exec_dec _, ?_⟩, fun s => ⟨_, _, exec_dec s, exec_inc _, ?_⟩⟩
  · obtain ⟨m, hrun, hcell, hother⟩ := execTimes_inc k s
    exact ⟨_, hrun, hcell, keepsAllBut_tape fun a => (hother a).imp_left fun ha => ⟨by simp, ha⟩⟩
  · rw [State.setCell_cell, cellDec_cellInc]
    exact ⟨s.setCell_back_keepsAll _, State.setCell_back_eq _⟩
  · rw [State.setCell_cell, cellInc_cellDec]
    exact ⟨s.setCell_back_keepsAll _, State.setCell_back_eq _⟩

/-- Settles O26: `cellInc` in both of its forms, and 256 INCs as the sum modulo 256. -/
theorem incAddsOneModulo256 : Obligations.IncAddsOneModulo256 := by
  refine ⟨by decide, fun s => ⟨_, exec_inc s, ?_, ?_, s.setCell_keepsAllBut _⟩, fun s => ?_⟩
  · exact (congrArg BitVec.toNat (State.setCell_cell s _)).trans (cellInc_toNat_eq_ite s.cell)
  · exact (congrArg BitVec.toNat (State.setCell_cell s _)).trans (cellInc_toNat s.cell)
  · obtain ⟨m, hrun, hread⟩ := execTimes_inc_256 s
    exact ⟨_, hrun, hread s.ptr.val, keepsAllBut_tape fun a => .inr (hread a)⟩

/-- Settles O27: `cellDec` in both of its forms. -/
theorem decSubtractsOneModulo256 : Obligations.DecSubtractsOneModulo256 := by
  refine ⟨by decide, fun s => ⟨_, exec_dec s, ?_, ?_, s.setCell_keepsAllBut _⟩⟩
  · exact (congrArg BitVec.toNat (State.setCell_cell s _)).trans (cellDec_toNat_eq_ite s.cell)
  · exact (congrArg BitVec.toNat (State.setCell_cell s _)).trans (cellDec_toNat s.cell)

end Sys2Proof.Machine
end

section
/-! PROOFS. Input and output (44_io.md): what `.` and `,` do when the host takes the unit or answers, and that a `.` delivers
once and a `,` asks once, however many attempts the host lets pass. The wait is one induction for both (`run_attempts`). What it
keeps is the history with the events the next attempt adds for its request or offer, so that a later attempt adds none. -/

namespace Sys2Proof.Machine

variable {s t u : State}

/-! ### One attempt -/

@[simp] theorem offerEvents_requests (s : State) : (offerEvents s).countP (fun e => e == .inRequest) = 0 := by
  unfold offerEvents; split <;> rfl

/-- Settles O29: the acceptance is the one event of OUT that delivers, and no event of OUT takes or asks. -/
theorem outDeliversTheCell : Obligations.OutDeliversTheCell := by
  refine ⟨by decide, fun s ha => ?_, fun s => ⟨_, rfl⟩⟩
  have hexec := exec_out_delivers ha
  refine ⟨_, hexec, ?_, rfl, rfl, ?_, ?_, rfl, exec_keepsAllBut hexec⟩
  · simp [State.outHistory, Event.delivered]
  · simp [State.inPosition, Event.taken]
  · simp [State.inRequests]

/-- What an answered `,` does, whatever the answer (R161): the answer alone says whether a byte is taken. -/
theorem exec_inp_answered_frame {a : InAnswer} (ha : s.hostAnswer.1 = some a) : ∃ t, exec .inp s = .next t ∧
    tapeGet t.tape s.ptr.val = a.cellValue ∧
    t.inPosition = s.inPosition + ([.inAnswer a].filterMap Event.taken).length ∧ t.inReq = false ∧
    t.input = s.hostAnswer.2 ∧ t.outHistory = s.outHistory ∧ KeepsAllBut [.cell, .inReq, .input, .log] s t := by
  have hexec := exec_inp_answered ha
  refine ⟨_, hexec, ?_, ?_, rfl, rfl, ?_, exec_keepsAllBut hexec⟩
  · simp [tapeGet_tapeSet]
  · simp [State.inPosition]
  · simp [State.outHistory, Event.delivered]

/-- Settles O30: a byte and NoByte are the two answers of `exec_inp_answered_frame`. -/
theorem inpStoresTheAnswer : Obligations.InpStoresTheAnswer :=
  ⟨by decide, fun _ _ => exec_inp_answered_frame, fun _ => exec_inp_answered_frame, fun _ => ⟨_, rfl⟩⟩

/-! ### Attempt after attempt -/

/-- Where the host's choice `no` leads from one attempt to the next in one step, and `yes` ends the attempts in one step: after
any number of `no`s and a `yes` they have ended, and the engine has looked at the port once in each (assumption 12). -/
theorem run_attempts {α : Type} {draw : Nat → α} {port : State → Feed α} {no yes : α} {Attempt Done : State → Prop}
    (hno : ∀ t, Attempt t → (feedNext draw (port t)).1 = no →
      ∃ u, step t = .next u ∧ Attempt u ∧ port u = (feedNext draw (port t)).2)
    (hyes : ∀ t, Attempt t → (feedNext draw (port t)).1 = yes →
      ∃ u, step t = .next u ∧ Done u ∧ port u = (feedNext draw (port t)).2)
    {waits : Nat} (h : Attempt s) (hw : ∀ k, k < waits → feedAt draw (port s) k = no)
    (ha : feedAt draw (port s) waits = yes) :
    ∃ t, core.run (waits + 1) s = .next t ∧ Done t ∧ port t = feedAfter draw (waits + 1) (port s) := by
  induction waits generalizing s with
  | zero =>
    obtain ⟨u, hstep, hdone, hport⟩ := hyes s h ha
    exact ⟨u, run_succ hstep 0, hdone, hport⟩
  | succ n ih =>
    obtain ⟨u, hstep, hu, hport⟩ := hno s h (hw 0 n.succ_pos)
    obtain ⟨t, hrun, hdone, hrest⟩ := ih hu (fun k hk => hport ▸ hw (k + 1) (Nat.succ_lt_succ hk)) (hport ▸ ha)
    exact ⟨t, (run_succ hstep (n + 1)).trans hrun, hdone, hrest.trans (congrArg (feedAfter draw (n + 1)) hport)⟩

/-- In `t` the engine is to dispatch `i`, with the PC, tape and pointer of `s`, and the host makes no move at the command,
program and reset ports. -/
structure Dispatches (i : Instr) (s t : State) : Prop where
  phase : t.phase = .run
  inside : t.pc < t.progLen
  fetched : t.fetched = i
  moves : t.moves = noMoves
  pc : t.pc = s.pc
  tape : t.tape = s.tape
  ptr : t.ptr = s.ptr

theorem Dispatches.step_eq {i : Instr} (h : Dispatches i s t) (hu : exec i (t.tick noMoves) = .next u) :
    step t = .next u.afterDispatch := by
  have hm : t.hostMove = (.pause, noMoves) := by rw [State.hostMove, h.moves, feedNext_noMoves]
  refine step_dispatch h.phase h.inside (by rw [State.rstAsserted, hm]; rfl) ?_
  rw [h.fetched, State.movesWhileBusy, hm]
  exact hu

/-! ### The attempts of a `,` -/

/-- An attempt of the `,` that started in `s`: with the request, if it still has to be made, the history is one request
longer than in `s`. -/
structure Asking (s t : State) : Prop extends Dispatches .inp s t where
  noOffer : t.outOffer = none
  log : t.log ++ requestEvents t = s.log ++ [.inRequest]

theorem Asking.step_waits (h : Asking s t) (ha : t.hostAnswer.1 = none) :
    ∃ u, step t = .next u ∧ Asking s u ∧ u.input = t.hostAnswer.2 := by
  have hstep := h.step_eq (exec_inp_waits ha)
  rw [State.afterDispatch_of_waiting rfl] at hstep
  exact ⟨_, hstep, ⟨⟨h.phase, h.inside, h.fetched, rfl, h.pc, h.tape, h.ptr⟩, h.noOffer,
    (List.append_nil _).trans h.log⟩, rfl⟩

theorem Asking.step_answered {a : InAnswer} (h : Asking s t) (ha : t.hostAnswer.1 = some a) :
    ∃ u, step t = .next u ∧ (u.pc = s.pc + 1 ∧ tapeGet u.tape s.ptr.val = a.cellValue ∧ u.inReq = false ∧
      u.log = s.log ++ [.inRequest, .inAnswer a]) ∧ u.input = t.hostAnswer.2 := by
  have hstep := h.step_eq (exec_inp_answered ha)
  rw [State.afterDispatch_of_done (by simp [State.waiting, h.noOffer])] at hstep
  have hlog : t.log ++ requestEvents t ++ [.inAnswer a] = s.log ++ [.inRequest, .inAnswer a] := by simp [h.log]
  exact ⟨_, hstep, ⟨congrArg (· + 1) h.pc, by simp [h.ptr, tapeGet_tapeSet], rfl, hlog⟩, rfl⟩

/-- Settles O32: at the start nothing is requested, so the request is the first attempt's, and the answer the last one's. -/
theorem oneRequestPerInp : Obligations.OneRequestPerInp := by
  intro s waits a hp hl hf hi ho hm hw ha
  have hstart : Asking s s := ⟨⟨hp, hl, hf, hm, rfl, rfl, rfl⟩, ho, by simp [requestEvents, hi]⟩
  obtain ⟨t, hrun, ⟨hpc, hcell, hreq, hlog⟩, hinput⟩ := run_attempts (port := State.input)
    (fun _ => Asking.step_waits) (fun _ => Asking.step_answered) hstart hw ha
  exact ⟨t, hrun, hpc, hcell, hinput, hreq, hlog⟩

/-! ### The attempts of a `.` -/

/-- An attempt of the `.` that started in `s`: with the offer, if it still has to be made, the history is one offer of the
current cell longer than in `s`. -/
structure Offering (s t : State) : Prop extends Dispatches .out s t where
  noRequest : t.inReq = false
  log : t.log ++ offerEvents t = s.log ++ [.outUnit s.cell]

theorem Dispatches.cell_eq {i : Instr} (h : Dispatches i s t) : t.cell = s.cell := by
  rw [State.cell, h.tape, h.ptr, State.cell]

theorem Offering.step_waits (h : Offering s t) (ha : t.hostAccept.1 = false) :
    ∃ u, step t = .next u ∧ Offering s u ∧ u.accept = t.hostAccept.2 := by
  have hstep := h.step_eq (exec_out_waits ha)
  rw [State.afterDispatch_of_waiting (by simp [State.waiting])] at hstep
  exact ⟨_, hstep, ⟨⟨h.phase, h.inside, h.fetched, rfl, h.pc, h.tape, h.ptr⟩, h.noRequest,
    (List.append_nil _).trans h.log⟩, rfl⟩

theorem Offering.step_delivers (h : Offering s t) (ha : t.hostAccept.1 = true) :
    ∃ u, step t = .next u ∧ (u.pc = s.pc + 1 ∧ u.tape = s.tape ∧ u.outOffer = none ∧
      u.log = s.log ++ [.outUnit s.cell, .outAccept s.cell]) ∧ u.accept = t.hostAccept.2 := by
  have hstep := h.step_eq (exec_out_delivers ha)
  rw [State.afterDispatch_of_done (by simp [State.waiting, h.noRequest])] at hstep
  have hlog : t.log ++ offerEvents t ++ [.outAccept t.cell] = s.log ++ [.outUnit s.cell, .outAccept s.cell] := by
    simp [h.log, h.cell_eq]
  exact ⟨_, hstep, ⟨congrArg (· + 1) h.pc, h.tape, rfl, hlog⟩, rfl⟩

/-- Settles O33: at the start nothing is on offer, so the offer is the first attempt's, and the acceptance, which alone
delivers, the last one's. -/
theorem oneUnitPerOut : Obligations.OneUnitPerOut := by
  intro s waits hp hl hf hi ho hm hw ha
  have hstart : Offering s s := ⟨⟨hp, hl, hf, hm, rfl, rfl, rfl⟩, hi, by simp [offerEvents, ho]⟩
  obtain ⟨t, hrun, ⟨hpc, htape, hoffer, hlog⟩, haccept⟩ := run_attempts (port := State.accept)
    (fun _ => Offering.step_waits) (fun _ => Offering.step_delivers) hstart hw ha
  exact ⟨t, hrun, hpc, htape, haccept, hoffer, hlog, State.outHistory_grow hlog⟩

end Sys2Proof.Machine
end

section
/-! PROOFS. Loop control (45_loop.md): `[` does nothing, `]` writes PC alone and on a cell that is not 0 alone. Neither asks the
host anything, so each is over in the one step that dispatches it (`step_pc_written`). -/

namespace Sys2Proof.Machine

variable {s : State}

theorem exec_loopOpen (s : State) : exec .loopOpen s = .next s := rfl

/-- The dispatch of an instruction that leaves `p` in PC and everything else alone: the increment goes on from `p` (R126). -/
theorem step_pc_written {p : Nat} (hp : s.phase = .run) (hl : s.pc < s.progLen) (hr : s.rstAsserted = false)
    (hw : s.waiting = false)
    (h : exec s.fetched (s.tick s.movesWhileBusy) = .next { s.tick s.movesWhileBusy with pc := p }) :
    step s = .next { s.tick s.movesWhileBusy with pc := p + 1 } := by
  have hdone : ({ s.tick s.movesWhileBusy with pc := p } : State).waiting = false := hw
  rw [step_dispatch hp hl hr h, State.afterDispatch_of_done hdone]

theorem State.fetched_eq_loopOpen (h : s.progAt s.pc = 0x5B) : s.fetched = .loopOpen :=
  (decodeChar_eq_loopOpen_iff _).2 h

theorem State.fetched_eq_loopClose (h : s.progAt s.pc = 0x5D) : s.fetched = .loopClose :=
  (decodeChar_eq_loopClose_iff _).2 h

/-- Settles O34: `[` leaves PC to the increment whatever the cell, and the scan stacks it. -/
theorem openDoesNothing : Obligations.OpenDoesNothing := by
  refine ⟨(decodeChar_eq_loopOpen_iff _).2 rfl, exec_loopOpen, fun s hp hl hr hw hc => ?_, scanFrom_cons_open⟩
  have hexec : exec s.fetched (s.tick s.movesWhileBusy) = .next (s.tick s.movesWhileBusy) := by
    rw [State.fetched_eq_loopOpen hc, exec_loopOpen]
  exact step_pc_written hp hl hr hw hexec

/-- A `]` on the cell 0 by the cell's number, which the obligation speaks of. -/
theorem exec_loopClose_of_toNat_eq_zero (h : s.cell.toNat = 0) : exec .loopClose s = .next s :=
  exec_loopClose_falls (BitVec.eq_of_toNat_eq h)

/-- A taken `]` by the cell's number, which the obligation speaks of. -/
theorem exec_loopClose_of_toNat_ne_zero {o : Nat} (h : s.cell.toNat ≠ 0) (hj : mapGet s.jt s.pc = some o) :
    exec .loopClose s = .next { s with pc := o } :=
  exec_loopClose_jumps (fun hz => h (congrArg BitVec.toNat hz)) hj

/-- Settles O35: `]` leaves its own index in PC on the cell 0, and the index of its `[` otherwise; the increment follows in
both cases (R173). -/
theorem closeJumpsBackWhileTheCellIsNotZero : Obligations.CloseJumpsBackWhileTheCellIsNotZero := by
  refine ⟨(decodeChar_eq_loopClose_iff _).2 rfl, fun s => exec_loopClose_of_toNat_eq_zero, fun s o hcell hj => ?taken,
    fun s hp hl hr hw hc hcell => ?stepFalls, fun s o hp hl hr hw hc hcell hj => ?stepJumps⟩
  case taken =>
    have hexec := exec_loopClose_of_toNat_ne_zero hcell hj
    exact ⟨_, hexec, rfl, rfl, exec_keepsAllBut hexec⟩
  case stepFalls =>
    have hexec : exec s.fetched (s.tick s.movesWhileBusy) = .next (s.tick s.movesWhileBusy) := by
      rw [State.fetched_eq_loopClose hc]
      exact exec_loopClose_of_toNat_eq_zero hcell
    exact step_pc_written hp hl hr hw hexec
  case stepJumps =>
    refine step_pc_written hp hl hr hw ?_
    rw [State.fetched_eq_loopClose hc]
    exact exec_loopClose_of_toNat_ne_zero hcell hj

end Sys2Proof.Machine
end

section
/-! PROOFS. The host interface (47_host_interface.md): every step goes on with the event history as section 1 allows, and in
a run the host's moves at the command and program ports change nothing but the host's own list of them (section 2). -/

namespace Sys2Proof.Machine

variable {s t u : State}

/-! ### Where a history stands -/

theorem State.stage_of_idle (hp : s.phase = .idle) : s.stage = .ready := by
  simp [State.stage, hp]

theorem State.stage_of_resolve (hp : s.phase = .resolve) : s.stage = .calling := by
  simp [State.stage, hp]

theorem State.stage_of_run (hp : s.phase = .run) (hw : s.waiting = false) : s.stage = .calling := by
  obtain ⟨hi, ho⟩ : s.inReq = false ∧ s.outOffer = none := by simpa [State.waiting] using hw
  simp [State.stage, hp, hi, ho]

theorem State.stage_of_asking (hp : s.phase = .run) (hi : s.inReq = true) : s.stage = .awaitIn := by
  simp [State.stage, hp, hi]

theorem State.stage_of_offering {v : Byte} (hp : s.phase = .run) (hi : s.inReq = false) (ho : s.outOffer = some v) :
    s.stage = .awaitOut v := by
  simp [State.stage, hp, hi, ho]

theorem State.stage_congr (hp : t.phase = s.phase) (hi : t.inReq = s.inReq) (ho : t.outOffer = s.outOffer) :
    t.stage = s.stage := by
  simp [State.stage, hp, hi, ho]

theorem PortsInv.waiting_eq_false (h : PortsInv s) (hn : ¬ (s.phase = .run ∧ s.pc < s.progLen)) : s.waiting = false := by
  have hi : s.inReq = false := h.inReq_eq_false fun ⟨hp, hl, _⟩ => hn ⟨hp, hl⟩
  have ho : s.outOffer = none := h.outOffer_eq_none fun ⟨hp, hl, _⟩ => hn ⟨hp, hl⟩
  simp [State.waiting, hi, ho]

/-! ### Legal histories, event by event -/

@[simp] theorem Stage.after_construct (g : Stage) : g.after .construct = some .ready := by
  cases g <;> rfl

theorem stageFrom_append (g : Stage) (es fs : List Event) :
    stageFrom g (es ++ fs) = (stageFrom g es).bind fun g' => stageFrom g' fs := by
  induction es generalizing g with
  | nil => rfl
  | cons e es ih =>
    simp only [List.cons_append, stageFrom]
    cases g.after e with
    | none => rfl
    | some g' => exact ih g'

/-- A legal history stays so by events that lead from where the old state stands to where the new one does. -/
theorem State.historyLegal.grow {es : List Event} {g : Stage} (h : s.historyLegal) (hlog : t.log = s.log ++ es)
    (hes : stageFrom s.stage es = some g) (ht : t.stage = g) : t.historyLegal := by
  unfold State.historyLegal at h ⊢
  rw [hlog, stageFrom_append, h, ht]
  exact hes

theorem State.historyLegal.stay (h : s.historyLegal) (hlog : t.log = s.log) (ht : t.stage = s.stage) : t.historyLegal :=
  h.grow (hlog.trans (List.append_nil _).symm) rfl ht

/-- A completion ends a call in which nothing is outstanding. -/
theorem State.historyLegal.complete (h : s.historyLegal) (hs : s.stage = .calling) (r : Report) :
    (s.complete r).historyLegal :=
  h.grow rfl (by rw [hs]; rfl) (State.stage_of_idle rfl)

/-! ### A dispatch keeps the history legal -/

/-- Whether a `.` makes its offer in this step or made it before, the unit on offer is the current cell. -/
theorem PortsInv.stageFrom_offerEvents (h : PortsInv s) (hp : s.phase = .run) (hi : s.inReq = false) :
    stageFrom s.stage (offerEvents s) = some (.awaitOut s.cell) := by
  cases ho : s.outOffer with
  | none =>
    rw [s.stage_of_run hp (by simp [State.waiting, hi, ho])]
    simp [offerEvents, ho, stageFrom, Stage.after]
  | some v =>
    obtain ⟨-, -, -, hv⟩ := h.offer v ho
    rw [s.stage_of_offering hp hi ho]
    simp [offerEvents, ho, stageFrom, hv]

/-- Whether a `,` asks in this step or asked before, its request is outstanding. -/
theorem stageFrom_requestEvents (hp : s.phase = .run) (ho : s.outOffer = none) :
    stageFrom s.stage (requestEvents s) = some .awaitIn := by
  cases hi : s.inReq with
  | false =>
    rw [s.stage_of_run hp (by simp [State.waiting, hi, ho])]
    simp [requestEvents, hi, stageFrom, Stage.after]
  | true =>
    rw [s.stage_of_asking hp hi]
    simp [requestEvents, hi, stageFrom]

theorem State.historyLegal.exec_out (h : s.historyLegal) (hports : PortsInv s) (hp : s.phase = .run)
    (hi : s.inReq = false) (hu : exec .out s = .next u) : u.historyLegal := by
  have hoffer := hports.stageFrom_offerEvents hp hi
  cases ha : s.hostAccept.1 with
  | true =>
    rw [exec_out_delivers ha] at hu; cases hu
    have hes : stageFrom s.stage (offerEvents s ++ [.outAccept s.cell]) = some .calling := by
      rw [stageFrom_append, hoffer]
      simp [stageFrom, Stage.after]
    exact h.grow (List.append_assoc _ _ _) hes (State.stage_of_run hp (by simp [State.waiting, hi]))
  | false =>
    rw [exec_out_waits ha] at hu; cases hu
    exact h.grow rfl hoffer (State.stage_of_offering hp hi rfl)

theorem State.historyLegal.exec_inp (h : s.historyLegal) (hp : s.phase = .run) (ho : s.outOffer = none)
    (hu : exec .inp s = .next u) : u.historyLegal := by
  have hrequest := stageFrom_requestEvents hp ho
  cases ha : s.hostAnswer.1 with
  | some a =>
    rw [exec_inp_answered ha] at hu; cases hu
    have hes : stageFrom s.stage (requestEvents s ++ [.inAnswer a]) = some .calling := by
      rw [stageFrom_append, hrequest]
      rfl
    exact h.grow (List.append_assoc _ _ _) hes (State.stage_of_run hp (by simp [State.waiting, ho]))
  | none =>
    rw [exec_inp_waits ha] at hu; cases hu
    exact h.grow rfl hrequest (State.stage_of_asking hp rfl)

theorem log_mem_partsWritten {i : Instr} (h : .log ∈ partsWritten i) : i = .out ∨ i = .inp := by
  cases i <;> simp_all [partsWritten]

/-- An instruction that uses no stream adds no event and leaves the ports alone. -/
theorem State.historyLegal.exec_other {i : Instr} (h : s.historyLegal) (hout : i ≠ .out) (hinp : i ≠ .inp)
    (hu : exec i s = .next u) : u.historyLegal := by
  have hk := exec_keepsAllBut hu
  refine h.stay (hk.log.resolve_left fun hm => ?_) (State.stage_congr hk.phase
    (hk.inReq.resolve_left fun hm => hinp (inReq_mem_partsWritten hm))
    (hk.outOffer.resolve_left fun hm => hout (outOffer_mem_partsWritten hm)))
  exact (log_mem_partsWritten hm).elim hout hinp

/-- R132, R191: the fetched instruction is the one whose request or offer may stand. -/
theorem State.historyLegal.exec_fetched (h : s.historyLegal) (hports : PortsInv s) (hp : s.phase = .run)
    (hu : exec s.fetched s = .next u) : u.historyLegal := by
  by_cases hout : s.fetched = .out
  · have hi : s.inReq = false := hports.inReq_eq_false (by simp [hout])
    exact h.exec_out hports hp hi (hout ▸ hu)
  by_cases hinp : s.fetched = .inp
  · have ho : s.outOffer = none := hports.outOffer_eq_none (by simp [hinp])
    exact h.exec_inp hp ho (hinp ▸ hu)
  · exact h.exec_other hout hinp hu

/-- Settles O43, transition by transition: outside a dispatch nothing is outstanding, so a completion finds the call free to
end. -/
theorem stepKeepsTheHistoryLegal : Obligations.StepKeepsTheHistoryLegal := by
  intro s t hinv h hst
  have hq : (s.tick s.movesWhileBusy).historyLegal := h
  have silent (hn : ¬ (s.phase = .run ∧ s.pc < s.progLen)) : s.waiting = false := hinv.ports.waiting_eq_false hn
  cases step_transition hst with
  | hardwareReset => exact h.grow rfl (by simp [stageFrom]) (State.stage_of_idle rfl)
  | progWrite => exact h.stay rfl rfl
  | execute n rest src _ hp => exact h.grow rfl (by rw [State.stage_of_idle hp]; rfl) (State.stage_of_resolve rfl)
  | reset rest _ hp => exact h.grow rfl (by rw [State.stage_of_idle hp]; rfl) (State.stage_of_idle hp)
  | rest => exact hq
  | scanFails e _ hp => exact hq.complete (State.stage_of_resolve hp) e.report
  | scans => exact h.stay rfl rfl
  | startRun _ hp =>
    have hw : s.waiting = false := silent (by simp [hp])
    exact h.grow (List.append_nil _).symm (congrArg some (State.stage_of_resolve hp)) (State.stage_of_run rfl hw)
  | openLeft o _ _ hp => exact hq.complete (State.stage_of_resolve hp) (StructuralError.unmatchedOpen o).report
  | dispatch u _ hp _ hu =>
    have hexec : u.historyLegal := hq.exec_fetched (hinv.tick s.movesWhileBusy).ports hp hu
    exact hexec.stay rfl rfl
  | endRun _ hp he =>
    have hw : s.waiting = false := silent fun ⟨_, hl⟩ => hl.ne he
    exact hq.complete (State.stage_of_run hp hw) ⟨.ok, 0⟩

/-! ### The engine's part of a step under other moves of the host -/

/-- `s` with the host's coming moves replaced. -/
def State.withMoves (f : Feed HostMove) (s : State) : State := { s with moves := f }

section
variable (f : Feed HostMove) (s : State)

@[simp] theorem State.withMoves_jt : (s.withMoves f).jt = s.jt := rfl
@[simp] theorem State.withMoves_progLen : (s.withMoves f).progLen = s.progLen := rfl
@[simp] theorem State.withMoves_stk : (s.withMoves f).stk = s.stk := rfl
@[simp] theorem State.withMoves_scan : (s.withMoves f).scan = s.scan := rfl
@[simp] theorem State.withMoves_progAt : (s.withMoves f).progAt = s.progAt := rfl
@[simp] theorem State.withMoves_fetched : (s.withMoves f).fetched = s.fetched := rfl
@[simp] theorem State.withMoves_waiting : (s.withMoves f).waiting = s.waiting := rfl

theorem State.afterDispatch_withMoves : (s.withMoves f).afterDispatch = s.afterDispatch.withMoves f := by
  unfold State.afterDispatch
  rw [State.withMoves_waiting]
  cases s.waiting <;> rfl

theorem State.resolveStep_withMoves : (s.withMoves f).resolveStep = s.resolveStep.withMoves f := by
  by_cases hl : s.scan < s.progLen
  · simp only [State.resolveStep, State.withMoves_scan, State.withMoves_progLen, State.withMoves_progAt,
      State.withMoves_stk, State.withMoves_jt, hl, if_true]
    cases scanChar (s.progAt s.scan) s.scan s.stk s.jt <;> rfl
  · simp only [State.resolveStep, State.withMoves_scan, State.withMoves_progLen, State.withMoves_stk, hl, if_false]
    cases s.stk <;> rfl

/-- No instruction looks at the host's coming moves: `.` and `,` look at their own ports only, and a `]` with no entry stops
whatever the moves. -/
theorem exec_withMoves (i : Instr) : exec i (s.withMoves f) = onNext (State.withMoves f) (exec i s) := by
  cases i with
  | out =>
    cases ha : s.hostAccept.1 with
    | true => rw [exec_out_delivers ha, exec_out_delivers (s := s.withMoves f) ha]; rfl
    | false => rw [exec_out_waits ha, exec_out_waits (s := s.withMoves f) ha]; rfl
  | inp =>
    cases ha : s.hostAnswer.1 with
    | some a => rw [exec_inp_answered ha, exec_inp_answered (s := s.withMoves f) ha]; rfl
    | none => rw [exec_inp_waits ha, exec_inp_waits (s := s.withMoves f) ha]; rfl
  | loopClose =>
    by_cases hc : s.cell = 0#8
    · rw [exec_loopClose_falls hc, exec_loopClose_falls (s := s.withMoves f) hc]; rfl
    · cases hj : mapGet s.jt s.pc with
      | some o => rw [exec_loopClose_jumps hc hj, exec_loopClose_jumps (s := s.withMoves f) hc hj]; rfl
      | none => rw [exec_loopClose_misses hc hj, exec_loopClose_misses (s := s.withMoves f) hc hj]; rfl
  | _ => rfl

theorem State.dispatchStep_withMoves :
    (s.withMoves f).dispatchStep = onNext (State.withMoves f) s.dispatchStep := by
  rw [State.dispatchStep_eq, State.dispatchStep_eq, State.withMoves_fetched, exec_withMoves]
  cases exec s.fetched s with
  | next u => simp [State.afterDispatch_withMoves]
  | fault => rfl
  | refused => rfl

theorem State.runEngine_withMoves : (s.withMoves f).runEngine = onNext (State.withMoves f) s.runEngine := by
  cases hp : s.phase with
  | idle => rw [State.runEngine_idle hp, State.runEngine_idle (s := s.withMoves f) hp]; rfl
  | resolve =>
    rw [State.runEngine_resolve hp, State.runEngine_resolve (s := s.withMoves f) hp, State.resolveStep_withMoves]; rfl
  | run =>
    obtain hl | he | ho := Nat.lt_trichotomy s.pc s.progLen
    · rw [State.runEngine_dispatch hp hl, State.runEngine_dispatch (s := s.withMoves f) hp hl,
        State.dispatchStep_withMoves]
    · rw [State.runEngine_end hp he, State.runEngine_end (s := s.withMoves f) hp he]; rfl
    · rw [State.runEngine_outside hp ho, State.runEngine_outside (s := s.withMoves f) hp ho]; rfl

end

theorem State.rstAsserted_eq_false (h : s.hostMove.1 ≠ .hardwareReset) : s.rstAsserted = false := by
  refine Bool.eq_false_iff.2 fun hr => ?_
  obtain ⟨rest, hm⟩ := State.hostMove_of_rstAsserted hr
  exact h (by rw [hm])

/-- Settles O12: in a run the step is the engine's own part, which does not look at the host's coming moves. -/
theorem hostMovesDoNotTouchARun : Obligations.HostMovesDoNotTouchARun := by
  intro s hp hm
  have hpause : step { s with moves := noMoves } = (s.tick noMoves).runEngine :=
    step_pause (s := { s with moves := noMoves }) rfl
  calc step s = ((s.tick noMoves).withMoves s.movesWhileBusy).runEngine := step_while_busy hp (State.rstAsserted_eq_false hm)
    _ = onNext (State.withMoves s.movesWhileBusy) (s.tick noMoves).runEngine := State.runEngine_withMoves _ _
    _ = onNext (State.withMoves s.movesWhileBusy) (step { s with moves := noMoves }) := by rw [hpause]

end Sys2Proof.Machine
end

section
/-! PROOFS. Decoding at any character width (30_encoding.md sections 1 to 3, 5): the decoder compares numbers, whatever the
width, and the spec's example words are the encodings of their instructions. -/

namespace Sys2Proof.Machine

/-- R81: at a width that holds the 8-bit codes, zero-extending one keeps its number. -/
theorem codeIs_iff {w : Nat} (hw : 8 ≤ w) (c : BitVec w) (k : Code) : codeIs c k = true ↔ c.toNat = k.toNat := by
  have hk : k.toNat < 2 ^ w := k.isLt.trans_le (Nat.pow_le_pow_right Nat.two_pos hw)
  simp [codeIs, ← BitVec.toNat_inj, Nat.mod_eq_of_lt hk]

/-- The opcode map of R85 by the codes' numbers. -/
theorem decodeAt_eq_of_toNat {w : Nat} (hw : 8 ≤ w) (c : BitVec w) (other : Instr) :
    decodeAt c other =
      if c.toNat = Config.codeRight.toNat then .right
      else if c.toNat = Config.codeLeft.toNat then .left
      else if c.toNat = Config.codeInc.toNat then .inc
      else if c.toNat = Config.codeDec.toNat then .dec
      else if c.toNat = Config.codeOut.toNat then .out
      else if c.toNat = Config.codeIn.toNat then .inp
      else if c.toNat = Config.codeOpen.toNat then .loopOpen
      else if c.toNat = Config.codeClose.toNat then .loopClose
      else other := by
  simp only [decodeAt, codeIs_iff hw]

/-- Settles O2: the decoder compares the codes' numbers, and 0x013E is the number of none. -/
theorem decodingMatchesEveryBitAtAnyWidth : Obligations.DecodingMatchesEveryBitAtAnyWidth := by
  refine ⟨fun w c other hw => decodeAt_eq_of_toNat hw c other, fun other => ?_, fun _ => rfl⟩
  rw [decodeAt_eq_of_toNat (by decide)]
  rfl

/-- Settles O1: each word is the encoding of the instructions the spec writes beside it, and decoding reads them back. -/
theorem exampleWordsDecodeAsWritten : Obligations.ExampleWordsDecodeAsWritten :=
  ⟨decodeProgram_encodeProgram (is := [.right, .inc, .inc, .loopOpen, .left, .inc, .inc, .right, .dec, .loopClose])
      (by decide),
    decodeProgram_encodeProgram (is := [.nop 0x61, .inc, .nop 0x62]) (by decide),
    decodeChar_encode (i := .out) rfl, decodeChar_encode (i := .inp) rfl⟩

end Sys2Proof.Machine
end

section
/-! PROOFS. Resets and launches (70_reset_and_hazards.md; 47_host_interface.md R192 to R194, R203): what hardware reset gives
and keeps, which EXECUTE and which program write is taken, and how long PROG, PROG_LEN and PROG_MAX stay. -/

namespace Sys2Proof.Machine

variable {s t : State}

/-! ### Hardware reset -/

theorem FreshEngine.of_reset : FreshEngine State.reset :=
  ⟨tapeGet_nil, rfl, rfl, mapGet_nil, rfl, rfl, rfl, rfl, rfl, rfl⟩

/-- R250: hardware reset takes over all that the fresh engine says from `State.reset`, whatever the engine was doing. -/
theorem FreshEngine.hardwareReset (s : State) (rest : Feed HostMove) : FreshEngine (s.hardwareReset rest) :=
  { FreshEngine.of_reset with }

/-- R250, R255: in IDLE only an EXECUTE leaves IDLE. -/
theorem step_idle_of_no_execute (hp : s.phase = .idle) (h : step s = .next t) (hno : ∀ n, s.hostMove.1 ≠ .execute n) :
    t.phase = .idle := by
  cases step_transition h with
  | hardwareReset => rfl
  | execute n _ _ hm => exact absurd (by rw [hm]) (hno n)
  | progWrite => exact hp
  | reset => exact hp
  | rest => exact hp
  | _ => simp_all -- the others start in RESOLVE or RUN

/-- Settles O5: reset and hardware reset both give the fresh engine, and in IDLE every other move of the host keeps IDLE. -/
theorem hardwareResetGivesTheFreshEngine : Obligations.HardwareResetGivesTheFreshEngine :=
  ⟨.of_reset, fun s rest hm => ⟨_, step_hardwareReset hm, .hardwareReset s rest, rfl⟩,
    fun _ _ => step_idle_of_no_execute⟩

/-- Settles O6: the one event of hardware reset, the construction, delivers no unit and takes no byte. -/
theorem hardwareResetWithdrawsAndReportsNothing : Obligations.HardwareResetWithdrawsAndReportsNothing := by
  intro s rest hm
  have hlog : (s.hardwareReset rest).log = s.log ++ [.construct] := rfl
  exact ⟨_, step_hardwareReset hm, .hardwareReset s rest, hlog, by simp [State.outHistory_grow hlog, Event.delivered],
    State.inPosition_grow hlog, rfl, rfl, rfl, rfl, rfl, rfl⟩

/-! ### EXECUTE and program writes in IDLE -/

/-- Settles O8: the launch writes the sequencer's registers, and its event delivers no unit and takes no byte. -/
theorem executeIsAcceptedInIdle : Obligations.ExecuteIsAcceptedInIdle := by
  intro s n rest hp hm hf hw
  obtain ⟨u, rfl, hstep⟩ := step_execute hp hm hf hw
  exact ⟨_, hstep, rfl, fun _ => rfl, rfl, mapGet_nil, rfl, rfl, rfl, rfl, rfl, rfl, rfl,
    by simp [State.outHistory, Event.delivered], by simp [State.inPosition, Event.taken], rfl, rfl⟩

/-- An EXECUTE in IDLE is the launch, taken or refused (R192). -/
theorem step_execute_eq {n : Nat} {rest : Feed HostMove} (hp : s.phase = .idle) (hm : s.hostMove = (.execute n, rest)) :
    step s = (s.tick rest).acceptExecute n := by
  simp [step, State.sequencerStep, hm, State.cmdReady, hp]

theorem State.acceptExecute_of_too_long {n : Nat} (hf : fitsProgMax s.progMax n = false) :
    s.acceptExecute n = .refused .sourceTooLong := by
  simp [State.acceptExecute, hf]

theorem State.acceptExecute_of_unwritten {n : Nat} (hf : fitsProgMax s.progMax n = true) (hw : s.writtenBelow n = false) :
    s.acceptExecute n = .refused .sourceUnwritten := by
  simp [State.acceptExecute, hf, hw]

/-- One location that nothing has written is enough. -/
theorem writtenBelow_eq_false {n i : Nat} (hi : i < n) (h : mapGet s.prog i = none) : s.writtenBelow n = false :=
  List.all_eq_false.2 ⟨i, List.mem_range.2 hi, by simp [h]⟩

/-- A program write in IDLE is the port's write, taken or refused (R193). -/
theorem step_progWrite_eq {a : Nat} {c : Code} {rest : Feed HostMove} (hp : s.phase = .idle)
    (hm : s.hostMove = (.progWrite a c, rest)) : step s = (s.tick rest).writeProgram a c := by
  simp [step, State.sequencerStep, hm, State.cmdReady, hp]

theorem State.writeProgram_of_outside {a : Nat} {c : Code} (ha : isProgAddress s.progMax a = false) :
    s.writeProgram a c = .refused .progAddressOutside := by
  simp [State.writeProgram, ha]

/-- Settles O10: the launch checks the length before the locations, and a program write its address. -/
theorem forbiddenLaunchesAreRefused : Obligations.ForbiddenLaunchesAreRefused :=
  ⟨fun _ _ _ hp hm hf => (step_execute_eq hp hm).trans (State.acceptExecute_of_too_long hf),
    fun _ _ _ _ hp hm hf hi hnone =>
      (step_execute_eq hp hm).trans (State.acceptExecute_of_unwritten hf (writtenBelow_eq_false hi hnone)),
    fun _ _ _ _ hp hm ha => (step_progWrite_eq hp hm).trans (State.writeProgram_of_outside ha)⟩

/-- A program location after a write (R193). -/
theorem State.progAt_of_mapInsert {a : Nat} {c : Code} (h : t.prog = mapInsert s.prog a c) (b : Nat) :
    t.progAt b = if b = a then c else s.progAt b := by
  rw [State.progAt, h, mapGet_mapInsert]
  split <;> rfl

/-- Settles O11: the step is the write of one key, after the tick that ends the pulse. -/
theorem programWriteSetsOneLocation : Obligations.ProgramWriteSetsOneLocation := by
  intro s a c rest hp hm ha
  refine ⟨_, step_progWrite hp hm ha, ?_, fun b hb => ?_, rfl, rfl⟩
  · rw [State.progAt_of_mapInsert (s := s) rfl, if_pos rfl]
  · rw [State.progAt_of_mapInsert (s := s) rfl, if_neg hb]

/-! ### What stays from run to run -/

/-- Settles O58: no transition writes PROG_MAX, nor does an instruction. -/
theorem progMaxNeverChanges : Obligations.ProgMaxNeverChanges := by
  intro s t h
  cases step_transition h with
  | dispatch u _ _ _ hu => exact (exec_keepsAllBut hu).progMax
  | _ => rfl

/-- Hardware reset apart, only a program write in IDLE writes PROG, and only an EXECUTE in IDLE writes PROG_LEN. -/
theorem step_keeps_program (h : step s = .next t) (hr : s.rstAsserted = false) :
    ((∀ a c, s.hostMove.1 = .progWrite a c → s.phase ≠ .idle) → t.prog = s.prog) ∧
      ((∀ n, s.hostMove.1 = .execute n → s.phase ≠ .idle) → t.progLen = s.progLen) := by
  cases step_transition h with
  | hardwareReset rest hm => simp [State.rstAsserted_of_hardwareReset hm] at hr
  | progWrite a c rest hm hp => exact ⟨fun hno => absurd hp (hno a c (by rw [hm])), fun _ => rfl⟩
  | execute n rest src hm hp => exact ⟨fun _ => rfl, fun hno => absurd hp (hno n (by rw [hm]))⟩
  | dispatch u _ _ _ hu => exact ⟨fun _ => (exec_keepsAllBut hu).prog, fun _ => (exec_keepsAllBut hu).progLen⟩
  | _ => exact ⟨fun _ => rfl, fun _ => rfl⟩

/-- Settles O59: the end of a run leaves PROG and PROG_LEN as they are, so that the EXECUTE after it is accepted and runs the
same source. -/
theorem programMemoryStaysUntilWrittenAnew : Obligations.ProgramMemoryStaysUntilWrittenAnew := by
  refine ⟨fun s t => step_keeps_program, fun s items r hp he hm hf hw => ?_⟩
  have hmove : s.hostMove = (.pause, ⟨.execute s.progLen :: items, r⟩) := by rw [State.hostMove, hm, feedNext_cons]
  obtain ⟨v, hv, hend⟩ : ∃ v, v = (s.tick ⟨.execute s.progLen :: items, r⟩).endRun ∧ step s = .next v :=
    ⟨_, rfl, (step_pause hmove).trans (State.runEngine_end hp he)⟩
  obtain ⟨u, hu, hstart⟩ := step_execute (s := v) (n := s.progLen) (rest := ⟨items, r⟩)
    (by rw [hv]; rfl) (by rw [hv]; rfl) (by rw [hv]; exact hf) (by rw [hv]; exact hw)
  have hsource : u.source = s.source := by rw [hu, hv]; rfl
  have hrun : core.run 2 s = .next (u.record [.execute u.source]) := (run_succ hend 1).trans (run_succ hstart 0)
  rw [hsource, hu, hv] at hrun
  exact ⟨_, hrun, rfl, rfl, rfl, rfl, rfl, by simp⟩

end Sys2Proof.Machine
end

section
/-! PROOFS. Structural errors and stops by name (60_exceptions.md; 93_implementation_defined.md U23): how RESOLVE ends, and
where the machine has no rule to go on. -/

namespace Sys2Proof.Machine

variable {s t : State} {e : StructuralError}

/-- The scan's two failures (R102, R103) are the two ways to take a structural error. -/
theorem State.resolveStep_eq_raise
    (h : (s.scan < s.progLen ∧ scanChar (s.progAt s.scan) s.scan s.stk s.jt = .error e) ∨
      (s.progLen ≤ s.scan ∧ ∃ o below, s.stk = o :: below ∧ e = .unmatchedOpen o)) : s.resolveStep = s.raise e := by
  obtain ⟨hl, hc⟩ | ⟨hl, o, below, hs, rfl⟩ := h
  · simp [State.resolveStep, hl, hc]
  · simp [State.resolveStep, hl.not_gt, hs]

/-- Settles O19: the step takes the error, whose completion event delivers no unit. -/
theorem structuralErrorEndsTheRunWithItsReport : Obligations.StructuralErrorEndsTheRunWithItsReport := by
  intro s e hp hr hfails
  have hraise : (s.tick s.movesWhileBusy).resolveStep = (s.tick s.movesWhileBusy).raise e :=
    State.resolveStep_eq_raise hfails
  have hstep : step s = .next ((s.tick s.movesWhileBusy).raise e) := hraise ▸ step_resolve hp hr
  have hlog : ((s.tick s.movesWhileBusy).raise e).log = s.log ++ [.completed ⟨e.kind, e.index⟩] := rfl
  exact ⟨_, hstep, rfl, rfl, mapGet_nil, rfl, rfl, hlog, rfl, rfl, rfl,
    by simp [State.outHistory_grow hlog, Event.delivered], rfl⟩

/-- Settles O56: hardware reset, either error and the start of RUN each clear the transients; one more character scanned
stays in RESOLVE. -/
theorem leavingResolveDiscardsTheTransients : Obligations.LeavingResolveDiscardsTheTransients := by
  intro s t h hp hleft
  cases step_transition h with
  | hardwareReset => exact ⟨rfl, rfl⟩
  | scanFails => exact ⟨rfl, rfl⟩
  | openLeft => exact ⟨rfl, rfl⟩
  | startRun => exact ⟨rfl, rfl⟩
  | scans => exact absurd hp hleft
  | _ => simp_all -- the others start in IDLE or RUN

/-- Settles O36: the lookup of a taken `]` misses, and the dispatch loop has no case above PROG_LEN. -/
theorem statesWithoutARuleStopByName : Obligations.StatesWithoutARuleStopByName := by
  refine ⟨fun s hcell hj => ?_, fun s hp ho hr => ?_⟩
  · exact exec_loopClose_misses (fun hz => hcell (congrArg BitVec.toNat hz)) hj
  · exact (step_while_busy (by simp [hp]) hr).trans (State.runEngine_outside hp ho)

end Sys2Proof.Machine
end

section
/-! PROOFS. The host's feeds (47_host_interface.md section 2; 44_io.md section 3): the listed items, and then what the rest
says. -/

namespace Sys2Proof.Machine

variable {α : Type} (draw : Nat → α)

/-- After the first listed item the feed is that of the others. -/
theorem feedAt_cons_succ (a : α) (items : List α) (r : Rest α) (k : Nat) :
    feedAt draw ⟨a :: items, r⟩ (k + 1) = feedAt draw ⟨items, r⟩ k := rfl

theorem feedAt_of_lt (items : List α) (r : Rest α) {k : Nat} (hk : k < items.length) :
    feedAt draw ⟨items, r⟩ k = items[k] := by
  induction items generalizing k with
  | nil => simp at hk
  | cons a items ih =>
    cases k with
    | zero => rfl
    | succ k => exact ih (Nat.lt_of_succ_lt_succ hk)

theorem feedAt_length_add (items : List α) (r : Rest α) (k : Nat) :
    feedAt draw ⟨items, r⟩ (items.length + k) = feedAt draw ⟨[], r⟩ k := by
  induction items with
  | nil => rw [List.length_nil, Nat.zero_add]
  | cons a items ih => rw [List.length_cons, Nat.add_right_comm, feedAt_cons_succ, ih]

theorem feedAt_always (a : α) (k : Nat) : feedAt draw ⟨[], .always a⟩ k = a := by
  induction k with
  | zero => rfl
  | succ k ih => exact ih

theorem feedAt_drawn (n k : Nat) : feedAt draw ⟨[], .drawn n⟩ k = draw (n + k) := by
  induction k generalizing n with
  | zero => rfl
  | succ k ih =>
    calc feedAt draw ⟨[], .drawn n⟩ (k + 1) = feedAt draw ⟨[], .drawn (n + 1)⟩ k := rfl
      _ = draw (n + 1 + k) := ih (n + 1)
      _ = draw (n + (k + 1)) := by rw [Nat.add_right_comm, Nat.add_assoc]

/-- Settles O57: the listed items are used up one by one, and then the rest alone is left. -/
theorem feedsGiveTheHostsChoicesInOrder : Obligations.FeedsGiveTheHostsChoicesInOrder := by
  intro α draw items
  refine ⟨fun r k hk => feedAt_of_lt draw items r hk, fun a k => ?_, fun n k => ?_⟩
  · rw [feedAt_length_add, feedAt_always]
  · rw [feedAt_length_add, feedAt_drawn]

end Sys2Proof.Machine
end
